-- ==== Sys2Proof/Word.lean ====
section
/-! DEFINITION. The widths of the machine's values (00_scope.md R9, R10; 10_state.md). -/
namespace Sys2Proof

/-- A byte: a general register, a timer, a memory cell, an immediate nn. -/
abbrev Byte := BitVec 8

/-- A 16-bit value: an opcode, pc, I, a return address. -/
abbrev Word := BitVec 16

/-- A 12-bit address field nnn (30_encoding.md R93). -/
abbrev Addr := BitVec 12

/-- The number of a general register, V0 to VF (10_state.md R20). -/
abbrev Reg := Fin 16

/-- The number of a key of the keypad (10_state.md R35). -/
abbrev Key := Fin 16

/-- The register that doubles as the flag, VF = V[15] (10_state.md R21). -/
abbrev Reg.flag : Reg := 15

end Sys2Proof
end

