-- ==== Sys2Proof/Syntax.lean ====
section
/-! DEFINITION. The instructions: one constructor for each of the 35 rows of spec/opcode_table.json, with the operands that
30_encoding.md R92 and R93 give the row. Operands stand in the order of the row's fields. -/
namespace Sys2Proof

/-- The 35 instructions (30_encoding.md R95 to R100). -/
inductive Instr where
  /-- `00E0` CLS (43_display.md R191). -/
  | cls
  /-- `00EE` RET (40_control_flow.md R122). -/
  | ret
  /-- `0nnn` SYS nnn, every other opcode of major 0 (40_control_flow.md R121). -/
  | sys (nnn : Addr)
  /-- `1nnn` JP nnn (R123). -/
  | jp (nnn : Addr)
  /-- `2nnn` CALL nnn (R124). -/
  | call (nnn : Addr)
  /-- `3xnn` SE Vx, nn (R125). -/
  | seImm (x : Reg) (nn : Byte)
  /-- `4xnn` SNE Vx, nn (R126). -/
  | sneImm (x : Reg) (nn : Byte)
  /-- `5xy0` SE Vx, Vy (R127). -/
  | seReg (x y : Reg)
  /-- `6xnn` LD Vx, nn (41_alu.md R141). -/
  | ldImm (x : Reg) (nn : Byte)
  /-- `7xnn` ADD Vx, nn (R142). -/
  | addImm (x : Reg) (nn : Byte)
  /-- `8xy0` LD Vx, Vy (R143). -/
  | ldReg (x y : Reg)
  /-- `8xy1` OR Vx, Vy (R144). -/
  | orReg (x y : Reg)
  /-- `8xy2` AND Vx, Vy (R145). -/
  | andReg (x y : Reg)
  /-- `8xy3` XOR Vx, Vy (R146). -/
  | xorReg (x y : Reg)
  /-- `8xy4` ADD Vx, Vy (R147). -/
  | addReg (x y : Reg)
  /-- `8xy5` SUB Vx, Vy (R148). -/
  | sub (x y : Reg)
  /-- `8xy6` SHR Vx, Vy (R150). -/
  | shr (x y : Reg)
  /-- `8xy7` SUBN Vx, Vy (R151). -/
  | subn (x y : Reg)
  /-- `8xyE` SHL Vx, Vy (R152). -/
  | shl (x y : Reg)
  /-- `9xy0` SNE Vx, Vy (40_control_flow.md R128). -/
  | sneReg (x y : Reg)
  /-- `Annn` LD I, nnn (42_index_memory.md R171). -/
  | ldI (nnn : Addr)
  /-- `Bnnn` JP V0, nnn; the register of the modern form is the top nibble of nnn (40_control_flow.md R129). -/
  | jpV0 (nnn : Addr)
  /-- `Cxnn` RND Vx, nn (41_alu.md R154). -/
  | rnd (x : Reg) (nn : Byte)
  /-- `Dxyn` DRW Vx, Vy, n (43_display.md R192). -/
  | drw (x y : Reg) (n : Fin 16)
  /-- `Ex9E` SKP Vx (44_keypad_timers.md R201). -/
  | skp (x : Reg)
  /-- `ExA1` SKNP Vx (R202). -/
  | sknp (x : Reg)
  /-- `Fx07` LD Vx, DT (R203). -/
  | ldVxDt (x : Reg)
  /-- `Fx0A` LD Vx, K (R204). -/
  | ldVxK (x : Reg)
  /-- `Fx15` LD DT, Vx (R207). -/
  | ldDtVx (x : Reg)
  /-- `Fx18` LD ST, Vx (R208). -/
  | ldStVx (x : Reg)
  /-- `Fx1E` ADD I, Vx (42_index_memory.md R172). -/
  | addI (x : Reg)
  /-- `Fx29` LD F, Vx (R173). -/
  | ldF (x : Reg)
  /-- `Fx33` LD B, Vx (R174). -/
  | ldB (x : Reg)
  /-- `Fx55` LD [I], Vx (R176). -/
  | stRegs (x : Reg)
  /-- `Fx65` LD Vx, [I] (R177). -/
  | ldRegs (x : Reg)
  deriving DecidableEq, Repr

end Sys2Proof
end

