-- ==== Sys2Proof/Decode.lean ====
section
/-! DEFINITION. The decoder, total on any bytes, and the encoder (30_encoding.md R90 to R107). Decode reads the 16 opcode bits and
nothing else (R107). The bit patterns are the spec's general knowledge GK1, GK2, GK8 (UNVERIFIED, log 9). -/
namespace Sys2Proof

/-- What decoding answers: a value, or a rejection by name. -/
inductive Decoded (α : Type) where
  | ok (a : α)
  /-- The opcode has no assigned meaning (30_encoding.md R101): the STEP that fetched it raises `UnknownOpcode`. -/
  | unassigned (op : Word)
  /-- Fewer than the two bytes of an instruction (R91). Only `decodeBytes` answers it: a fetch always has two. -/
  | truncated
  deriving DecidableEq, Repr

/-- The four bits of `op` from bit `lo` up, as a number below 16 (R93). -/
def nibbleAt (op : Word) (lo : Nat) : Fin 16 :=
  ⟨(op.extractLsb' lo 4).toNat, (op.extractLsb' lo 4).isLt⟩

/-- `x = op[11:8]` (R93). -/
def fieldX (op : Word) : Reg := nibbleAt op 8

/-- `y = op[7:4]` (R93). -/
def fieldY (op : Word) : Reg := nibbleAt op 4

/-- `n = op[3:0]` (R93). -/
def fieldN (op : Word) : Fin 16 := nibbleAt op 0

/-- `nn = op[7:0]` (R93). -/
def fieldNn (op : Word) : Byte := op.extractLsb' 0 8

/-- `nnn = op[11:0]` (R93). -/
def fieldNnn (op : Word) : Addr := op.extractLsb' 0 12

/-- The major opcode `op[15:12]`, the leading nibble (R93). -/
def major (op : Word) : Nat := (nibbleAt op 12).val

/-- Major 0x0: the exact matches first (R96). -/
def decodeZero (op : Word) : Decoded Instr :=
  if op = 0x00E0#16 then .ok .cls
  else if op = 0x00EE#16 then .ok .ret
  else .ok (.sys (fieldNnn op))

/-- Majors 0x5 and 0x9 require n = 0 (R100). -/
def decodeXy0 (op : Word) (i : Instr) : Decoded Instr :=
  if (fieldN op).val = 0 then .ok i else .unassigned op

/-- Major 0x8, selected by n (R97). -/
def decodeAlu (op : Word) : Decoded Instr :=
  match (fieldN op).val with
  | 0x0 => .ok (.ldReg (fieldX op) (fieldY op))
  | 0x1 => .ok (.orReg (fieldX op) (fieldY op))
  | 0x2 => .ok (.andReg (fieldX op) (fieldY op))
  | 0x3 => .ok (.xorReg (fieldX op) (fieldY op))
  | 0x4 => .ok (.addReg (fieldX op) (fieldY op))
  | 0x5 => .ok (.sub (fieldX op) (fieldY op))
  | 0x6 => .ok (.shr (fieldX op) (fieldY op))
  | 0x7 => .ok (.subn (fieldX op) (fieldY op))
  | 0xE => .ok (.shl (fieldX op) (fieldY op))
  | _ => .unassigned op

/-- Major 0xE, selected by nn (R98). -/
def decodeKeypad (op : Word) : Decoded Instr :=
  match (fieldNn op).toNat with
  | 0x9E => .ok (.skp (fieldX op))
  | 0xA1 => .ok (.sknp (fieldX op))
  | _ => .unassigned op

/-- Major 0xF, selected by nn (R99). -/
def decodeMisc (op : Word) : Decoded Instr :=
  match (fieldNn op).toNat with
  | 0x07 => .ok (.ldVxDt (fieldX op))
  | 0x0A => .ok (.ldVxK (fieldX op))
  | 0x15 => .ok (.ldDtVx (fieldX op))
  | 0x18 => .ok (.ldStVx (fieldX op))
  | 0x1E => .ok (.addI (fieldX op))
  | 0x29 => .ok (.ldF (fieldX op))
  | 0x33 => .ok (.ldB (fieldX op))
  | 0x55 => .ok (.stRegs (fieldX op))
  | 0x65 => .ok (.ldRegs (fieldX op))
  | _ => .unassigned op

/-- Decode one 16-bit opcode by its major nibble (R95). -/
def decodeWord (op : Word) : Decoded Instr :=
  match major op with
  | 0x0 => decodeZero op
  | 0x1 => .ok (.jp (fieldNnn op))
  | 0x2 => .ok (.call (fieldNnn op))
  | 0x3 => .ok (.seImm (fieldX op) (fieldNn op))
  | 0x4 => .ok (.sneImm (fieldX op) (fieldNn op))
  | 0x5 => decodeXy0 op (.seReg (fieldX op) (fieldY op))
  | 0x6 => .ok (.ldImm (fieldX op) (fieldNn op))
  | 0x7 => .ok (.addImm (fieldX op) (fieldNn op))
  | 0x8 => decodeAlu op
  | 0x9 => decodeXy0 op (.sneReg (fieldX op) (fieldY op))
  | 0xA => .ok (.ldI (fieldNnn op))
  | 0xB => .ok (.jpV0 (fieldNnn op))
  | 0xC => .ok (.rnd (fieldX op) (fieldNn op))
  | 0xD => .ok (.drw (fieldX op) (fieldY op) (fieldN op))
  | 0xE => decodeKeypad op
  | _ => decodeMisc op

/-- The opcode of two bytes as they lie in memory: the byte at the lower address is `op[15:8]` (20_memory.md R63). -/
def wordOfBytes (hi lo : Byte) : Word := hi ++ lo

/-- `op[15:8]`, the byte at the lower address (20_memory.md R63). -/
def highByte (op : Word) : Byte := op.extractLsb' 8 8

/-- `op[7:0]`, the byte at the higher address (20_memory.md R63). -/
def lowByte (op : Word) : Byte := op.extractLsb' 0 8

/-- Decode the first instruction of any list of bytes, with the bytes that follow it (30_encoding.md R91). -/
def decodeBytes : List Byte → Decoded (Instr × List Byte)
  | hi :: lo :: rest =>
    match decodeWord (wordOfBytes hi lo) with
    | .ok i => .ok (i, rest)
    | .unassigned op => .unassigned op
    | .truncated => .truncated
  | [_] | [] => .truncated

/-! The encoder, written from the patterns of 30_encoding.md R92 and R95 to R100. -/

/-- A number below 16 as a 4-bit field. -/
def nibble (r : Fin 16) : BitVec 4 := BitVec.ofNat 4 r.val

/-- Format A: major, nnn (R92). -/
def formA (maj : BitVec 4) (nnn : Addr) : Word := maj ++ nnn

/-- Formats XI and X: major, x, then eight bits that are the immediate nn or the minor opcode (R92). -/
def formXi (maj : BitVec 4) (x : Reg) (nn : Byte) : Word := maj ++ (nibble x ++ nn)

/-- Formats XY and XYN: major, x, y, then four bits that are the minor opcode or n (R92). -/
def formXy (maj : BitVec 4) (x y : Reg) (n : BitVec 4) : Word := maj ++ (nibble x ++ (nibble y ++ n))

/-- The opcode of an instruction. -/
def encode : Instr → Word
  | .cls => 0x00E0#16
  | .ret => 0x00EE#16
  | .sys nnn => formA 0x0#4 nnn
  | .jp nnn => formA 0x1#4 nnn
  | .call nnn => formA 0x2#4 nnn
  | .seImm x nn => formXi 0x3#4 x nn
  | .sneImm x nn => formXi 0x4#4 x nn
  | .seReg x y => formXy 0x5#4 x y 0x0#4
  | .ldImm x nn => formXi 0x6#4 x nn
  | .addImm x nn => formXi 0x7#4 x nn
  | .ldReg x y => formXy 0x8#4 x y 0x0#4
  | .orReg x y => formXy 0x8#4 x y 0x1#4
  | .andReg x y => formXy 0x8#4 x y 0x2#4
  | .xorReg x y => formXy 0x8#4 x y 0x3#4
  | .addReg x y => formXy 0x8#4 x y 0x4#4
  | .sub x y => formXy 0x8#4 x y 0x5#4
  | .shr x y => formXy 0x8#4 x y 0x6#4
  | .subn x y => formXy 0x8#4 x y 0x7#4
  | .shl x y => formXy 0x8#4 x y 0xE#4
  | .sneReg x y => formXy 0x9#4 x y 0x0#4
  | .ldI nnn => formA 0xA#4 nnn
  | .jpV0 nnn => formA 0xB#4 nnn
  | .rnd x nn => formXi 0xC#4 x nn
  | .drw x y n => formXy 0xD#4 x y (nibble n)
  | .skp x => formXi 0xE#4 x 0x9E#8
  | .sknp x => formXi 0xE#4 x 0xA1#8
  | .ldVxDt x => formXi 0xF#4 x 0x07#8
  | .ldVxK x => formXi 0xF#4 x 0x0A#8
  | .ldDtVx x => formXi 0xF#4 x 0x15#8
  | .ldStVx x => formXi 0xF#4 x 0x18#8
  | .addI x => formXi 0xF#4 x 0x1E#8
  | .ldF x => formXi 0xF#4 x 0x29#8
  | .ldB x => formXi 0xF#4 x 0x33#8
  | .stRegs x => formXi 0xF#4 x 0x55#8
  | .ldRegs x => formXi 0xF#4 x 0x65#8

/-- The bytes of an instruction as they lie in memory (20_memory.md R63). -/
def encodeBytes (i : Instr) : List Byte := [highByte (encode i), lowByte (encode i)]

/-- The 16-bit opcode of a word of the opcode table, of which the table gives `nbits` bits; the bits above them are zero. -/
def tableOpcode (nbits w : Nat) : Word := BitVec.ofNat 16 (w % 2 ^ nbits)

/-- What the decoder reads from an instruction whose bits are `w`, numbered as spec/opcode_table.json numbers them. The
instruction is one 16-bit word, laid out high byte first (20_memory.md R63). -/
def decodeTableWord (nbits w : Nat) : Option Instr :=
  match decodeBytes [highByte (tableOpcode nbits w), lowByte (tableOpcode nbits w)] with
  | .ok (i, _) => some i
  | .unassigned _ | .truncated => none

end Sys2Proof
end

