-- ==== Sys2Proof/Config.lean ====
section
/-! DEFINITION. What an implementation fixes (00_scope.md R9) and the free values. The font's place and bytes stand in Machine/Font.lean. -/
namespace Sys2Proof

/-- The compatibility profile, chosen at LOAD (00_scope.md R2, 10_state.md R37). -/
inductive Profile where
  /-- "strict COSMAC-VIP-era semantics". -/
  | original
  /-- "commonly adopted superchip-era fixes". -/
  | modern
  deriving DecidableEq, Repr

/-- `PC_RESET` and `ROM_BASE` (R9). -/
abbrev Config.pcReset : Word := 0x200#16

/-- `ROM_BASE` as an address (R9). -/
abbrev Config.romBase : Nat := 0x200

/-- `ROM_MAX`: "4096 − 0x200 = 3584 bytes" (R9). -/
abbrev Config.romMax : Nat := 3584

/-- FREE VALUE. The byte the environment supplies to the k-th draw of RND, the `rnd` argument of that STEP (00_scope.md R7,
41_alu.md R154, D13): nothing constrains it. DESIGN CHOICE, safe (log 6). -/
opaque Config.rndByte : Nat → Byte

end Sys2Proof
end

