-- ==== Sys2Proof/Machine/Font.lean ====
section
/-! DEFINITION. The built-in font: its place and its bytes, configuration that LOAD copies (10_state.md R41). UNVERIFIED: the place is
decision D4, the bytes are general knowledge GK3 (log 2). -/
namespace Sys2Proof

/-- `FONT_BASE`, decided 0x050 (00_scope.md R9, D4). -/
def Config.fontBase : Nat := 0x050

/-- Digits 0 to 7, five bytes each, top row first (10_state.md R41). -/
def Config.fontLow : List Byte :=
  [0xF0#8, 0x90#8, 0x90#8, 0x90#8, 0xF0#8] ++ [0x20#8, 0x60#8, 0x20#8, 0x20#8, 0x70#8] ++
  [0xF0#8, 0x10#8, 0xF0#8, 0x80#8, 0xF0#8] ++ [0xF0#8, 0x10#8, 0xF0#8, 0x10#8, 0xF0#8] ++
  [0x90#8, 0x90#8, 0xF0#8, 0x10#8, 0x10#8] ++ [0xF0#8, 0x80#8, 0xF0#8, 0x10#8, 0xF0#8] ++
  [0xF0#8, 0x80#8, 0xF0#8, 0x90#8, 0xF0#8] ++ [0xF0#8, 0x10#8, 0x20#8, 0x40#8, 0x40#8]

/-- Digits 8 to F (10_state.md R41). -/
def Config.fontHigh : List Byte :=
  [0xF0#8, 0x90#8, 0xF0#8, 0x90#8, 0xF0#8] ++ [0xF0#8, 0x90#8, 0xF0#8, 0x10#8, 0xF0#8] ++
  [0xF0#8, 0x90#8, 0xF0#8, 0x90#8, 0x90#8] ++ [0xE0#8, 0x90#8, 0xE0#8, 0x90#8, 0xE0#8] ++
  [0xF0#8, 0x80#8, 0x80#8, 0x80#8, 0xF0#8] ++ [0xE0#8, 0x90#8, 0x90#8, 0x90#8, 0xE0#8] ++
  [0xF0#8, 0x80#8, 0xF0#8, 0x80#8, 0xF0#8] ++ [0xF0#8, 0x80#8, 0xF0#8, 0x80#8, 0x80#8]

/-- `FONT_DATA`, the 80 bytes of the 16 digits (10_state.md R41). -/
def Config.fontData : List Byte := Config.fontLow ++ Config.fontHigh

end Sys2Proof
end

