-- ==== Sys2Proof/Machine/Memory.lean ====
section
/-! DEFINITION. The 4096-byte memory as data in canonical form, and its two access primitives (20_memory.md R60 to R68). -/
namespace Sys2Proof.Machine

/-- The memory `MEM[0..4095]`: the bytes that differ from `Memory.background`, with strictly rising addresses. -/
abbrev Memory := List Host.Cell

/-- What an unlisted address reads as: the reset contents, the font where LOAD copies it (10_state.md R40, R41) and elsewhere
`MEM_BACKGROUND`, for which D3 recommends all zeros (DESIGN CHOICE, unsafe, log 1). -/
def Memory.background (a : Nat) : Byte :=
  if Config.fontBase ≤ a then Config.fontData.getD (a - Config.fontBase) 0#8 else 0#8

/-- The byte a list of cells gives the address `a`, if it lists it. -/
def Memory.find : Memory → Nat → Option Byte
  | [], _ => none
  | (k, b) :: rest, a => if a = k then some b else Memory.find rest a

/-- `MEM[a]` for an address below 4096. -/
def Memory.cellAt (m : Memory) (a : Nat) : Byte := (m.find a).getD (Memory.background a)

/-- The cells without those of the address `a`. -/
def Memory.erase : Memory → Nat → Memory
  | [], _ => []
  | (k, c) :: rest, a => if a = k then Memory.erase rest a else (k, c) :: Memory.erase rest a

/-- The cells with `(a, b)` before the first higher address. -/
def Memory.insertCell : Memory → Nat → Byte → Memory
  | [], a, b => [(a, b)]
  | (k, c) :: rest, a, b => if a < k then (a, b) :: (k, c) :: rest else (k, c) :: Memory.insertCell rest a b

/-- `MEM[a] <- b` for an address below 4096, kept canonical: no entry equal to what an unlisted address reads as. -/
def Memory.put (m : Memory) (a : Nat) (b : Byte) : Memory :=
  if b = Memory.background a then m.erase a else (m.erase a).insertCell a b

/-- The canonical form of the cells from the address `lo` up: strictly rising addresses below 4096, no entry equal to
the background. -/
def Memory.wfFrom (lo : Nat) : Memory → Bool
  | [] => true
  | (k, b) :: rest => decide (lo ≤ k) && decide (k < 4096) && (b != Memory.background k) && Memory.wfFrom (k + 1) rest

/-- The canonical form of a memory. -/
def Memory.wf (m : Memory) : Bool := Memory.wfFrom 0 m

/-- Address translation: truncation to 12 bits and nothing else (20_memory.md R68). -/
def translate (addr : Nat) : Nat := addr % 4096

/-- `MemRead(addr, 1)` (00_scope.md R12, 20_memory.md R61): any address, never a fault. -/
def memRead (m : Memory) (addr : Nat) : Byte := m.cellAt (translate addr)

/-- `MemWrite(addr, 1, b)` (00_scope.md R12, 20_memory.md R61): any address, no protected range (R67, D16). -/
def memWrite (m : Memory) (addr : Nat) (b : Byte) : Memory := m.put (translate addr) b

/-- Single bytes written at `base`, `base + 1`, ... in ascending order (20_memory.md R65). -/
def memWriteBytes (m : Memory) (base : Nat) : List Byte → Memory
  | [] => m
  | b :: bs => memWriteBytes (memWrite m base b) (base + 1) bs

/-- `count` single bytes read at `base`, `base + 1`, ... in ascending order (20_memory.md R65). -/
def memReadBytes (m : Memory) (base : Nat) : Nat → List Byte
  | 0 => []
  | count + 1 => memRead m base :: memReadBytes m (base + 1) count

end Sys2Proof.Machine
end

