-- ==== Sys2Proof/Machine/State.lean ====
section
/-! DEFINITION. The state of the machine (10_state.md), the reasons a step can stop, and the state after reset. -/
namespace Sys2Proof.Machine

/-- The framebuffer `FB[y][x]`: 32 rows of 64 one-bit pixels, true is lit (10_state.md R36, 43_display.md R190). -/
abbrev Screen := Vector (Vector Bool 64) 32

/-- `WAIT`, the engine's sub-state (10_state.md R33). -/
inductive Wait where
  /-- `Running`: a STEP fetches and executes an instruction. -/
  | running
  /-- `AwaitingKey(x)`: `LD Vx, K` waits for a key and will write register x. -/
  | awaitingKey (x : Reg)
  deriving DecidableEq, Repr

/-- All the machine's state (10_state.md R20 to R40), plain data. -/
structure State where
  /-- `V[0..15]`, VF among them (R20, R21). -/
  v : Vector Byte 16
  /-- `I`, stored in 16 bits, every write masked to 12 (R23). -/
  i : Word
  /-- `pc`, 16 bits, unmasked (R24, R26). -/
  pc : Word
  /-- `sp`, how many stack entries are live, 0 to 16 (R28, R30). -/
  sp : Fin 17
  /-- `stack[0..15]`, return addresses, oldest first (R30). -/
  stack : Vector Word 16
  /-- `DT`, the delay timer (R29). -/
  dt : Byte
  /-- `ST`, the sound timer (R29). -/
  st : Byte
  /-- `FB`, the display (R36). -/
  fb : Screen
  /-- `WAIT` (R33). -/
  wait : Wait
  /-- `KEY[0..15]`, true is pressed (R35). -/
  key : Vector Bool 16
  /-- `KEY_PREV[0..15]`, the snapshot of the edge detector (R34). -/
  keyPrev : Vector Bool 16
  /-- `PROFILE`, written by LOAD only (R37). -/
  profile : Profile
  /-- `MEM[0..4095]` (R38). -/
  mem : Memory
  /-- THE MODEL'S OWN field: how many bytes RND has drawn from the free stream `Config.rndByte` (log 6). -/
  draws : Nat
  deriving DecidableEq, Repr

/-- The closed enumeration of 60_exceptions.md R220: three run-time faults and one load error. A fault is the result of its
transaction, which then writes nothing (00_scope.md R13, 60_exceptions.md R228). -/
inductive Fault where
  /-- Raised by a STEP whose fetched opcode is illegal, SYS included (R221, 40_control_flow.md R121): the pc at the start of the step,
  not reduced to 12 bits, and the 16 bits fetched. The spec's own fault. Safe: where an implementation ignores SYS
  (D5, log 8) the model only stops earlier. -/
  | unknownOpcode (addr opcode : Word)
  /-- Raised by CALL when 16 entries are live (R222). The spec's own fault, safe. -/
  | stackOverflow
  /-- Raised by RET when no entry is live (R223). The spec's own fault, safe. -/
  | stackUnderflow
  /-- Raised by LOAD when the ROM is longer than 3584 bytes (R224). The spec's own load error, safe; no step raises it. -/
  | romTooLarge
  deriving DecidableEq, Repr

/-- No meaning for the instruction. The spec gives every instruction an effect or a fault, so no step answers this. -/
inductive Refusal where
  /-- The instruction's arm has no meaning yet; raised by no arm of this model. Safe. -/
  | notModelled (mnemonic : String)
  deriving DecidableEq, Repr

/-- The state after a successful LOAD of an empty ROM under the profile `p`, all keys released (10_state.md R40): every value the
spec gives, and the values log entries 1, 3 and 4 name for the rest. -/
def State.resetUnder (p : Profile) : State where
  v := Vector.replicate 16 0#8
  i := 0#16
  pc := Config.pcReset
  sp := 0
  stack := Vector.replicate 16 0#16
  dt := 0#8
  st := 0#8
  fb := Vector.replicate 32 (Vector.replicate 64 false)
  wait := .running
  key := Vector.replicate 16 false
  keyPrev := Vector.replicate 16 false
  profile := p
  mem := []
  draws := 0

/-- The machine right after reset (10_state.md R40). The profile is LOAD's argument, open in the spec: `original` here
(DESIGN CHOICE, unsafe, log 5). -/
def State.reset : State := State.resetUnder .original

end Sys2Proof.Machine
end

