-- ==== Sys2Proof/Machine/Ops.lean ====
section
/-! DEFINITION. The named operations over the state: registers, pc, stack, display, memory, raising a fault, fetch (00_scope.md R11 to R14,
10_state.md R20 to R36, 20_memory.md R61, R62). -/
namespace Sys2Proof.Machine

/-- What a transaction or an instruction answers. -/
abbrev Result := Host.Outcome State Fault Refusal

/-- `raise F` (00_scope.md R13): the step ends at once with the fault and writes no state. This IS taking an exception on
this machine: no handler, no vector, no saved pc, no mode (60_exceptions.md R228), and so nothing to return from (R230). -/
def raise (f : Fault) : Result := .fault f

/-- Read `V[r]` (10_state.md R20). -/
def State.reg (s : State) (r : Reg) : Byte := s.v[r.val]

/-- `V[r] <- b` (10_state.md R20): no register is hardwired. -/
def State.setReg (s : State) (r : Reg) (b : Byte) : State := { s with v := s.v.set r.val b }

/-- `I <- value & 0xFFF` (10_state.md R23): the only way I is written. -/
def State.setI (s : State) (value : Word) : State := { s with i := value &&& 0x0FFF#16 }

/-- `pc <- target`, 16 bits, unmasked (00_scope.md R11, 10_state.md R26). -/
def State.setPc (s : State) (target : Word) : State := { s with pc := target }

/-- `next = (pc + 2) mod 65536` (00_scope.md R14). -/
def State.next (s : State) : Word := s.pc + 2#16

/-- `skip = (pc + 4) mod 65536` (00_scope.md R14). -/
def State.skip (s : State) : Word := s.pc + 4#16

/-- `pc <- next`, the end of every instruction that does not redirect control (10_state.md R25). -/
def State.advance (s : State) : State := s.setPc s.next

/-- A skip writes pc once: `skip` when it is taken, `next` when not (10_state.md R25, 90_conflicts.md C10). -/
def State.skipIf (s : State) (taken : Bool) : State := s.setPc (if taken then s.skip else s.next)

/-- `push(a)` (10_state.md R31): no state when 16 entries are live. -/
def State.push (s : State) (a : Word) : Option State :=
  if h : s.sp.val < 16 then
    some { s with stack := s.stack.set s.sp.val a, sp := ⟨s.sp.val + 1, by omega⟩ }
  else none

/-- `pop()` (10_state.md R32): the popped address and the state after; nothing when no entry is live. The entry stays in
the array as a stale value (R30). -/
def State.pop (s : State) : Option (Word × State) :=
  if h : 0 < s.sp.val then
    some (s.stack[s.sp.val - 1]'(by omega), { s with sp := ⟨s.sp.val - 1, by omega⟩ })
  else none

/-- `DT <- b` (10_state.md R28). -/
def State.setDt (s : State) (b : Byte) : State := { s with dt := b }

/-- `ST <- b` (10_state.md R28). -/
def State.setSt (s : State) (b : Byte) : State := { s with st := b }

/-- `MemRead(addr, 1)` (20_memory.md R61). -/
def State.load8 (s : State) (addr : Nat) : Byte := memRead s.mem addr

/-- `MemWrite(base + k, 1, bs[k])` for each k in ascending order (20_memory.md R61, R65). -/
def State.storeBytes (s : State) (base : Nat) (bs : List Byte) : State := { s with mem := memWriteBytes s.mem base bs }

/-- `V[k] <- bs[k]` from the register `r` up, in ascending order; numbers above 15 name no register. -/
def loadRegs (v : Vector Byte 16) (r : Nat) : List Byte → Vector Byte 16
  | [] => v
  | b :: bs => loadRegs (v.setIfInBounds r b) (r + 1) bs

/-- The pixel `FB[y][x]` (10_state.md R36). -/
def Screen.pixel (fb : Screen) (y : Fin 32) (x : Fin 64) : Bool := fb[y.val][x.val]

/-- `FB[y][x] <- lit` (10_state.md R36). -/
def Screen.setPixel (fb : Screen) (y : Fin 32) (x : Fin 64) (lit : Bool) : Screen :=
  fb.set y.val (fb[y.val].set x.val lit)

/-- Every pixel unlit (43_display.md R191). -/
def Screen.clear : Screen := Vector.replicate 32 (Vector.replicate 64 false)

/-- `MemRead(pc, 2)`: two bytes, each address wrapped on its own, the first in the upper half (20_memory.md R62, R63). -/
def fetchWord (s : State) : Word := wordOfBytes (s.load8 s.pc.toNat) (s.load8 (s.pc.toNat + 1))

end Sys2Proof.Machine
end

