-- ==== Sys2Proof/Machine/Flags.lean ====
section
/-! DEFINITION. The flag computations. VF is the machine's one flag; an instruction that sets it writes 0 or 1, after V[x]
(10_state.md R27, 41_alu.md R155). -/
namespace Sys2Proof.Machine

/-- A flag as a byte: 1 or 0 (10_state.md R27). -/
def flagByte (c : Bool) : Byte := if c then 1#8 else 0#8

/-- `V[0xF] <- 1` if the condition holds, else 0 (10_state.md R27). -/
def State.setFlag (s : State) (c : Bool) : State := s.setReg Reg.flag (flagByte c)

/-- Write a result, then the flag: with x = 0xF the flag is what stays (10_state.md R21, 41_alu.md R155). -/
def State.setRegFlag (s : State) (x : Reg) (b : Byte) (c : Bool) : State := (s.setReg x b).setFlag c

/-- The carry out of bit 7: `a + b > 255` (41_alu.md R147). -/
def carry (a b : Byte) : Bool := decide (255 < a.toNat + b.toNat)

/-- No borrow in `a - b`: `a >= b` (41_alu.md R148; the polarity is UNVERIFIED, D9, GK7, log 12). -/
def noBorrow (a b : Byte) : Bool := decide (b.toNat ≤ a.toNat)

/-- The bit a right shift by one loses (41_alu.md R150). -/
def bitOutRight (src : Byte) : Bool := src.getLsbD 0

/-- The bit a left shift by one loses (41_alu.md R152). -/
def bitOutLeft (src : Byte) : Bool := src.getLsbD 7

end Sys2Proof.Machine
end

