-- ==== Sys2Proof/Machine/Operands.lean ====
section
/-! DEFINITION. The operand forms (30_encoding.md R94): a register, an immediate as it stands, an address field zero-extended, the fixed
uses of I, and the operands that depend on the profile. -/
namespace Sys2Proof.Machine

/-- `zext_16(nnn)` (30_encoding.md R94). -/
def addrOperand (nnn : Addr) : Word := nnn.setWidth 16

/-- The effective address `I + k` before translation (42_index_memory.md R170); memory wraps it mod 4096 (20_memory.md R68). -/
def State.indexed (s : State) (k : Nat) : Nat := s.i.toNat + k

/-- The low four bits of V[r], which number a key or a font digit (44_keypad_timers.md R201, 42_index_memory.md R173; UNVERIFIED, D11, log 14). -/
def State.lowNibble (s : State) (r : Reg) : Fin 16 := ⟨(s.reg r).toNat % 16, Nat.mod_lt _ (by decide)⟩

/-- The source of a shift: V[y] in the original profile, V[x] in the modern one (41_alu.md R149). -/
def State.shiftSource (s : State) (x y : Reg) : Byte :=
  match s.profile with
  | .original => s.reg y
  | .modern => s.reg x

/-- `X`, the top nibble of nnn, which is `op[11:8]` (30_encoding.md R93, 90_conflicts.md C4). -/
def topNibble (nnn : Addr) : Reg := ⟨(nnn.extractLsb' 8 4).toNat, (nnn.extractLsb' 8 4).isLt⟩

/-- The offset of the jump with offset: V0 in the original profile, V[X] in the modern one (40_control_flow.md R129). -/
def State.jumpOffset (s : State) (nnn : Addr) : Byte :=
  match s.profile with
  | .original => s.reg 0
  | .modern => s.reg (topNibble nnn)

/-- What a block transfer of the registers V0 to Vx leaves in I: `(I + x + 1) & 0xFFF` in the original profile, I as it was in the
modern one (42_index_memory.md R175). -/
def State.afterBlock (s : State) (x : Reg) : State :=
  match s.profile with
  | .original => s.setI (s.i + BitVec.ofNat 16 (x.val + 1))
  | .modern => s

/-- The registers V0 to Vx, V0 first (42_index_memory.md R175). -/
def State.regBlock (s : State) (x : Reg) : List Byte := s.v.toList.take (x.val + 1)

/-- The three decimal digits of a byte, hundreds first (42_index_memory.md R174). -/
def decimalDigits (b : Byte) : List Byte :=
  [BitVec.ofNat 8 (b.toNat / 100), BitVec.ofNat 8 (b.toNat / 10 % 10), BitVec.ofNat 8 (b.toNat % 10)]

end Sys2Proof.Machine
end

