-- ==== Sys2Proof/Machine/Alu.lean ====
section
/-! DEFINITION. Register load, arithmetic and logic (41_alu.md). All operands are read before any write; then V[x], then VF, then pc (R155; the
reading order is UNVERIFIED, D8, log 11). LD Vx,Vy, SUBN, RND and the shift by one place are general knowledge (UNVERIFIED, GK5, GK11,
log 25). -/
namespace Sys2Proof.Machine

/-- The end of an instruction that writes V[x] and no flag (R140). -/
def finishReg (s : State) (x : Reg) (b : Byte) : Result := .next (s.setReg x b).advance

/-- The end of an instruction that writes V[x] and then VF (R140, R155). -/
def finishFlag (s : State) (x : Reg) (b : Byte) (c : Bool) : Result := .next (s.setRegFlag x b c).advance

/-- `LD Vx, nn` (R141). -/
def execLdImm (x : Reg) (nn : Byte) (s : State) : Result := finishReg s x nn

/-- `ADD Vx, nn` (R142): mod 256, no flag. -/
def execAddImm (x : Reg) (nn : Byte) (s : State) : Result := finishReg s x (s.reg x + nn)

/-- `LD Vx, Vy` (R143). -/
def execLdReg (x y : Reg) (s : State) : Result := finishReg s x (s.reg y)

/-- `OR Vx, Vy` (R144): VF is not written as a flag (D7, log 10). -/
def execOrReg (x y : Reg) (s : State) : Result := finishReg s x (s.reg x ||| s.reg y)

/-- `AND Vx, Vy` (R145): VF is not written as a flag (D7, log 10). -/
def execAndReg (x y : Reg) (s : State) : Result := finishReg s x (s.reg x &&& s.reg y)

/-- `XOR Vx, Vy` (R146): VF is not written as a flag (D7, log 10). -/
def execXorReg (x y : Reg) (s : State) : Result := finishReg s x (s.reg x ^^^ s.reg y)

/-- `ADD Vx, Vy` (R147). -/
def execAddReg (x y : Reg) (s : State) : Result :=
  finishFlag s x (s.reg x + s.reg y) (carry (s.reg x) (s.reg y))

/-- `SUB Vx, Vy` (R148). -/
def execSub (x y : Reg) (s : State) : Result :=
  finishFlag s x (s.reg x - s.reg y) (noBorrow (s.reg x) (s.reg y))

/-- `SUBN Vx, Vy` (R151). -/
def execSubn (x y : Reg) (s : State) : Result :=
  finishFlag s x (s.reg y - s.reg x) (noBorrow (s.reg y) (s.reg x))

/-- `SHR Vx, Vy` (R150). -/
def execShr (x y : Reg) (s : State) : Result :=
  finishFlag s x (s.shiftSource x y >>> 1) (bitOutRight (s.shiftSource x y))

/-- `SHL Vx, Vy` (R152). -/
def execShl (x y : Reg) (s : State) : Result :=
  finishFlag s x (s.shiftSource x y <<< 1) (bitOutLeft (s.shiftSource x y))

/-- `RND Vx, nn` for a given `rnd`, the argument of the STEP (R154). -/
def randomInto (rnd : Byte) (x : Reg) (nn : Byte) (s : State) : Result := finishReg s x (rnd &&& nn)

/-- `RND Vx, nn` (R154): the `rnd` of this STEP is the next free value of the stream, and the count of draws moves on, so that
nothing about one draw constrains another (D13, log 6). -/
def execRnd (x : Reg) (nn : Byte) (s : State) : Result :=
  randomInto (Config.rndByte s.draws) x nn { s with draws := s.draws + 1 }

end Sys2Proof.Machine
end

