-- ==== Sys2Proof/Machine/ControlFlow.lean ====
section
/-! DEFINITION. Control transfer (40_control_flow.md). Each meaning writes pc exactly once (R120). -/
namespace Sys2Proof.Machine

/-- `SYS nnn`: always `UnknownOpcode(pc, op)`, where op is `0nnn` (R121, D5; log 8). -/
def execSys (nnn : Addr) (s : State) : Result := raise (.unknownOpcode s.pc (encode (.sys nnn)))

/-- `RET` (R122): the popped address is pc; nothing is added to it. -/
def execRet (s : State) : Result :=
  match s.pop with
  | some (a, s') => .next (s'.setPc a)
  | none => raise .stackUnderflow

/-- `JP nnn` (R123). -/
def execJp (nnn : Addr) (s : State) : Result := .next (s.setPc (addrOperand nnn))

/-- `CALL nnn` (R124): pushes the full 16-bit `next`. -/
def execCall (nnn : Addr) (s : State) : Result :=
  match s.push s.next with
  | some s' => .next (s'.setPc (addrOperand nnn))
  | none => raise .stackOverflow

/-- `SE Vx, nn` (R125). -/
def execSeImm (x : Reg) (nn : Byte) (s : State) : Result := .next (s.skipIf (s.reg x == nn))

/-- `SNE Vx, nn` (R126). -/
def execSneImm (x : Reg) (nn : Byte) (s : State) : Result := .next (s.skipIf (s.reg x != nn))

/-- `SE Vx, Vy` (R127). -/
def execSeReg (x y : Reg) (s : State) : Result := .next (s.skipIf (s.reg x == s.reg y))

/-- `SNE Vx, Vy` (R128). -/
def execSneReg (x y : Reg) (s : State) : Result := .next (s.skipIf (s.reg x != s.reg y))

/-- `JP V0, nnn` (R129): the 16-bit sum goes to pc unmasked (D17, log 7). -/
def execJpV0 (nnn : Addr) (s : State) : Result :=
  .next (s.setPc (addrOperand nnn + (s.jumpOffset nnn).setWidth 16))

end Sys2Proof.Machine
end

