-- ==== Sys2Proof/Machine/Display.lean ====
section
/-! DEFINITION. The display: CLS, the sprite compositor and the collision detector (43_display.md). -/
namespace Sys2Proof.Machine

/-- A pixel's place: its row and its column. -/
abbrev Place := Fin 32 × Fin 64

/-- Coordinate translation: a row mod 32 and a column mod 64 (R194). -/
def place (row col : Nat) : Place := (⟨row % 32, Nat.mod_lt _ (by decide)⟩, ⟨col % 64, Nat.mod_lt _ (by decide)⟩)

/-- The places under the 1 bits of one sprite row, from the left: bit 7 is the leftmost (R192; UNVERIFIED, GK4, log 17). -/
def rowPlaces (b : Byte) (row col : Nat) : List Place :=
  ((List.range 8).filter fun c => b.getLsbD (7 - c)).map fun c => place row (col + c)

/-- The places under the 1 bits of a sprite whose rows are `bs`, its top left corner at (row, col) (R192). -/
def spritePlaces (row col : Nat) : List Byte → List Place
  | [] => []
  | b :: bs => rowPlaces b row col ++ spritePlaces (row + 1) col bs

/-- One sprite bit of 1: a lit pixel under it is a hit, and the pixel is inverted (R192, R193). -/
def plot (acc : Screen × Bool) (p : Place) : Screen × Bool :=
  (acc.1.setPixel p.1 p.2 (!acc.1.pixel p.1 p.2), acc.2 || acc.1.pixel p.1 p.2)

/-- The compositor: every sprite bit of 1 in turn, `hit` starting at 0 (R192). -/
def compose (fb : Screen) (ps : List Place) : Screen × Bool := ps.foldl plot (fb, false)

/-- The places a `DRW Vx, Vy, n` inverts: n rows read at I, at (V[x] mod 64, V[y] mod 32) (R192). -/
def State.drawPlaces (s : State) (x y : Reg) (n : Fin 16) : List Place :=
  spritePlaces ((s.reg y).toNat % 32) ((s.reg x).toNat % 64) (memReadBytes s.mem (s.indexed 0) n.val)

/-- `CLS` (R191): VF is not written. -/
def execCls (s : State) : Result := .next ({ s with fb := Screen.clear } : State).advance

/-- `DRW Vx, Vy, n` (R192): VF = hit, always written, after V[x] and V[y] have been read (R193). With n = 0 nothing is
drawn and VF = 0 (D6, log 9). -/
def execDrw (x y : Reg) (n : Fin 16) (s : State) : Result :=
  let drawn := compose s.fb (s.drawPlaces x y n)
  .next (({ s with fb := drawn.1 } : State).setFlag drawn.2).advance

end Sys2Proof.Machine
end

