-- ==== Sys2Proof/Machine/IndexMemory.lean ====
section
/-! DEFINITION. The index register and memory (42_index_memory.md). None writes VF as a flag and none faults (R170).
LD I, ADD I, LD F and the block V0 to Vx are general knowledge (UNVERIFIED, GK5, GK9, log 25). -/
namespace Sys2Proof.Machine

/-- `LD I, nnn` (R171). -/
def execLdI (nnn : Addr) (s : State) : Result := .next (s.setI (addrOperand nnn)).advance

/-- `ADD I, Vx` (R172): no flag even when the sum passes 0xFFF (D18, log 19). -/
def execAddI (x : Reg) (s : State) : Result := .next (s.setI (s.i + (s.reg x).setWidth 16)).advance

/-- `LD F, Vx` (R173): the address of the sprite of the digit in the low four bits. -/
def execLdF (x : Reg) (s : State) : Result :=
  .next (s.setI (BitVec.ofNat 16 (Config.fontBase + 5 * (s.lowNibble x).val))).advance

/-- `LD B, Vx` (R174): I is unchanged in both profiles. -/
def execLdB (x : Reg) (s : State) : Result :=
  .next (s.storeBytes (s.indexed 0) (decimalDigits (s.reg x))).advance

/-- `LD [I], Vx` (R176): V[k] to I + k for k from 0 to x, then I by the profile (R175). -/
def execStRegs (x : Reg) (s : State) : Result :=
  .next ((s.storeBytes (s.indexed 0) (s.regBlock x)).afterBlock x).advance

/-- `LD Vx, [I]` (R177): V[k] from I + k for k from 0 to x, then I by the profile (R175). -/
def execLdRegs (x : Reg) (s : State) : Result :=
  .next (({ s with v := loadRegs s.v 0 (memReadBytes s.mem (s.indexed 0) (x.val + 1)) } : State).afterBlock x).advance

end Sys2Proof.Machine
end

