-- ==== Sys2Proof/Machine/KeypadTimers.lean ====
section
/-! DEFINITION. The keypad and timer instructions and the awaiting-key sub-state (44_keypad_timers.md). The key skips and the
timer moves are general knowledge (UNVERIFIED, GK5, log 25). -/
namespace Sys2Proof.Machine

/-- `KEY[k]` (10_state.md R35). -/
def State.keyDown (s : State) (k : Key) : Bool := s.key[k.val]

/-- `KEY[k] = 1` and `KEY_PREV[k] = 0` (R205; the mechanism is UNVERIFIED, D12, log 15). -/
def State.rising (s : State) (k : Key) : Bool := s.key[k.val] && !s.keyPrev[k.val]

/-- The 16 keys, lowest first. -/
def allKeys : List Key := [0, 1, 2, 3, 4, 5, 6, 7] ++ [8, 9, 10, 11, 12, 13, 14, 15]

/-- The least rising key, if one rises (R205). -/
def State.firstRising (s : State) : Option Key := allKeys.find? s.rising

/-- `KEY_PREV[k] <- KEY[k]` for every k (R204, R205). -/
def State.snapshot (s : State) : State := { s with keyPrev := s.key }

/-- `SKP Vx` (R201). -/
def execSkp (x : Reg) (s : State) : Result := .next (s.skipIf (s.keyDown (s.lowNibble x)))

/-- `SKNP Vx` (R202). -/
def execSknp (x : Reg) (s : State) : Result := .next (s.skipIf (!s.keyDown (s.lowNibble x)))

/-- `LD Vx, K`, the entry step (R204): pc and V[x] are not written, and the step never completes the wait. -/
def execLdVxK (x : Reg) (s : State) : Result := .next ({ s with wait := .awaitingKey x } : State).snapshot

/-- A STEP while `WAIT = AwaitingKey(x)` (R205): nothing is fetched; a rising key ends the wait, and else only the
snapshot is taken again. -/
def waitingStep (x : Reg) (s : State) : State :=
  match s.firstRising with
  | none => s.snapshot
  | some k => ({ s.snapshot.setReg x (BitVec.ofNat 8 k.val) with wait := .running } : State).advance

/-- `LD Vx, DT` (R203). -/
def execLdVxDt (x : Reg) (s : State) : Result := .next (s.setReg x s.dt).advance

/-- `LD DT, Vx` (R207). -/
def execLdDtVx (x : Reg) (s : State) : Result := .next (s.setDt (s.reg x)).advance

/-- `LD ST, Vx` (R208). -/
def execLdStVx (x : Reg) (s : State) : Result := .next (s.setSt (s.reg x)).advance

end Sys2Proof.Machine
end

