-- ==== Sys2Proof/Machine/Fetch.lean ====
section
/-! DEFINITION. What a STEP in `Running` does with the opcode it fetched, and the placing of an opcode where it is fetched (30_encoding.md R90). -/
namespace Sys2Proof.Machine

/-- Decode, then raise `UnknownOpcode(pc, op)` or execute (30_encoding.md R90, R101). A fetch always has its two bytes, so
`truncated` does not occur; the arm answers the same fault. -/
def runOpcode (op : Word) (s : State) : Result :=
  match decodeWord op with
  | .ok i => exec i s
  | .unassigned _ => raise (.unknownOpcode s.pc op)
  | .truncated => raise (.unknownOpcode s.pc op)

/-- The state with the opcode `op` stored at pc, high byte first (20_memory.md R63). -/
def State.placeOpcode (s : State) (op : Word) : State := s.storeBytes s.pc.toNat [highByte op, lowByte op]

end Sys2Proof.Machine
end

