-- ==== Sys2Proof/Machine/Step.lean ====
section
/-! DEFINITION. One STEP transaction (30_encoding.md R90). -/
namespace Sys2Proof.Machine

/-- `STEP(rnd)` (R90): while the engine awaits a key nothing is fetched (44_keypad_timers.md R205); else fetch, decode,
execute. The `awaiting` of its result is `awaiting` of the next state (R206). -/
def step (s : State) : Host.Outcome State Fault Refusal :=
  match s.wait with
  | .awaitingKey x => .next (waitingStep x s)
  | .running => runOpcode (fetchWord s) s

/-- The state whose very next step fetches and runs the instruction with the bits `w` of the opcode table: its opcode at pc, and
`WAIT = Running`, since a waiting step fetches nothing (log 23). -/
def State.withFetchWord (s : State) (nbits w : Nat) : State :=
  ({ s with wait := .running } : State).placeOpcode (tableOpcode nbits w)

end Sys2Proof.Machine
end

