-- ==== Sys2Proof/Machine/Transactions.lean ====
section
/-! DEFINITION. The block's interface: its transactions and its observations (00_scope.md R7). Each is one whole function of the state, since
transactions are atomic and serialised (R6, R260). `step` is STEP; the others are not part of a step (log 16). -/
namespace Sys2Proof.Machine

/-- `STEP(rnd)` for a given `rnd` (00_scope.md R7, 30_encoding.md R90): only RND reads it (41_alu.md R154). `step` is the STEP whose
`rnd` is the next byte of the free stream (log 6). -/
def stepWith (rnd : Byte) (s : State) : Result :=
  match s.wait, decodeWord (fetchWord s) with
  | .running, .ok (.rnd x nn) => randomInto rnd x nn s
  | _, _ => step s

/-- The registers after LOAD's reset of them; KEY, stack[] and KEY_PREV are not written (70_reset_and_hazards.md R250). The count of
draws goes on (log 6). -/
def State.clearRegisters (s : State) (p : Profile) : State :=
  { s with
    v := Vector.replicate 16 0#8, i := 0#16, pc := Config.pcReset, sp := 0, dt := 0#8, st := 0#8
    fb := Screen.clear, wait := .running, profile := p }

/-- The memory LOAD leaves: the background `bg`, then the font, then the ROM from 0x200 (R250). -/
def loadedMemory (bg : Memory) (rom : List Byte) : Memory :=
  memWriteBytes (memWriteBytes bg Config.fontBase Config.fontData) Config.romBase rom

/-- `LOAD(rom, profile)` (R250), with `MEM_BACKGROUND` as the argument `bg` (D3): any 4096-byte image, the memory's previous
content among them. A ROM longer than 3584 bytes is `RomTooLarge` and nothing is written (R251, R224). -/
def load (bg : Memory) (rom : List Byte) (p : Profile) (s : State) : Result :=
  if Config.romMax < rom.length then raise .romTooLarge
  else .next { s.clearRegisters p with mem := loadedMemory bg rom }

/-- One timer's decrement, floored at 0 (60_exceptions.md R236). -/
def tickDown (t : Byte) : Byte := if t = 0#8 then 0#8 else t - 1#8

/-- `TICK` (60_exceptions.md R236): both timers, nothing else. -/
def tick (s : State) : State := (s.setDt (tickDown s.dt)).setSt (tickDown s.st)

/-- `SET_KEY(k, pressed)` (44_keypad_timers.md R200): nothing but `KEY[k]`. -/
def setKey (k : Key) (pressed : Bool) (s : State) : State := { s with key := s.key.set k.val pressed }

/-- `KEY_PRESSED(k)` (44_keypad_timers.md R200). -/
def keyPressed (k : Key) (s : State) : Bool := s.keyDown k

/-- The `FRAMEBUFFER` observation (43_display.md R190). -/
def framebuffer (s : State) : Screen := s.fb

/-- The `SOUND` observation: `ST > 0` (60_exceptions.md R237). -/
def sound (s : State) : Bool := decide (0 < s.st.toNat)

/-- The `AWAITING` observation (44_keypad_timers.md R206). -/
def awaiting (s : State) : Bool :=
  match s.wait with
  | .running => false
  | .awaitingKey _ => true

/-- The `awaiting` of the result `Ok(awaiting)` of `STEP(rnd)`: the AWAITING observation at the end of the step (30_encoding.md R90,
44_keypad_timers.md R206). Nothing when the STEP faults. -/
def stepAwaiting (rnd : Byte) (s : State) : Option Bool :=
  match stepWith rnd s with
  | .next t => some (awaiting t)
  | .fault _ | .refused _ => none

/-- The transactions that change the state (00_scope.md R7). -/
inductive Transaction where
  | load (background : Memory) (rom : List Byte) (profile : Profile)
  | step (rnd : Byte)
  | tick
  | setKey (k : Key) (pressed : Bool)
  deriving DecidableEq, Repr

/-- One transaction on the state. -/
def transact (t : Transaction) (s : State) : Result :=
  match t with
  | .load bg rom p => load bg rom p s
  | .step rnd => stepWith rnd s
  | .tick => .next (tick s)
  | .setKey k pressed => .next (setKey k pressed s)

/-- A history of whole transactions, in order, up to the first fault: any interleaving is legal (00_scope.md R8, D22). -/
def runHistory : List Transaction → State → Result
  | [], s => .next s
  | t :: ts, s =>
    match transact t s with
    | .next s' => runHistory ts s'
    | .fault f => .fault f
    | .refused r => .refused r

end Sys2Proof.Machine
end

