-- ==== Sys2Proof/Safety.lean ====
section
/-! DEFINITION. The terms the claims use: what a step may change, the invariant, the opcode's fields as the spec numbers them, the
illegal opcodes, the font's table, and the pixels a sprite covers. None of them is used by the machine. -/
namespace Sys2Proof.Machine

/-! The frame of an instruction. -/

/-- One piece of the state other than pc. -/
inductive Part where
  | reg (r : Reg)
  | index
  | depth
  | slot (j : Fin 16)
  | delay
  | sound
  | pixel (y : Fin 32) (x : Fin 64)
  | wait
  | key (k : Key)
  | keyPrev (k : Key)
  | profile
  | byte (a : Fin 4096)
  | draws
  deriving DecidableEq, Repr

/-- The piece reads the same in both states. A byte of memory is compared through `memRead`. -/
def Part.same (s t : State) : Part → Prop
  | .reg r => t.reg r = s.reg r
  | .index => t.i = s.i
  | .depth => t.sp = s.sp
  | .slot j => t.stack[j.val] = s.stack[j.val]
  | .delay => t.dt = s.dt
  | .sound => t.st = s.st
  | .pixel y x => t.fb.pixel y x = s.fb.pixel y x
  | .wait => t.wait = s.wait
  | .key k => t.key[k.val] = s.key[k.val]
  | .keyPrev k => t.keyPrev[k.val] = s.keyPrev[k.val]
  | .profile => t.profile = s.profile
  | .byte a => memRead t.mem a.val = memRead s.mem a.val
  | .draws => t.draws = s.draws

/-- Every piece of the state but pc reads the same in both states, unless it is `written`. -/
def Unchanged (written : Part → Prop) (s t : State) : Prop := ∀ p : Part, ¬ written p → p.same s t

/-- The memory address an access at `addr` reaches, `addr mod 4096` (20_memory.md R61). -/
def cellOf (addr : Nat) : Fin 4096 := ⟨addr % 4096, Nat.mod_lt _ (by decide)⟩

/-- The piece is a pixel of the display. -/
def Part.isPixel : Part → Prop
  | .pixel _ _ => True
  | _ => False

/-- The piece is a bit of the snapshot KEY_PREV. -/
def Part.isKeyPrev : Part → Prop
  | .keyPrev _ => True
  | _ => False

/-- The piece is a general register, numbered at most `x`. -/
def Part.isRegUpTo (x : Reg) : Part → Prop
  | .reg r => r ≤ x
  | _ => False

/-- An outcome with its next state, if there is one, mapped. -/
def onNext (f : State → State) : Result → Result
  | .next s => .next (f s)
  | .fault e => .fault e
  | .refused r => .refused r

/-- The state under the other profile's name, all else as it is. -/
def State.withProfile (s : State) (p : Profile) : State := { s with profile := p }

/-! The invariant. -/

/-- The memory is in canonical form, and I is below 4096 (10_state.md R23, R42). -/
abbrev State.Inv (s : State) : Prop := s.mem.wf = true ∧ s.i.toNat < 4096

/-- Every LOAD of the history takes a background in canonical form. -/
def Transaction.wf : Transaction → Prop
  | .load bg _ _ => bg.wf = true
  | .step _ | .tick | .setKey _ _ => True

/-- The transaction is a TICK or a SET_KEY, the events that reach a running engine from outside (60_exceptions.md R226). -/
def Transaction.isEvent : Transaction → Prop
  | .tick | .setKey _ _ => True
  | .load _ _ _ | .step _ => False

/-! The fields of an opcode by the spec's numbering, in plain arithmetic (00_scope.md R14). -/

/-- `op[11:8]`. -/
def opX (op : Word) : Reg := ⟨op.toNat / 256 % 16, Nat.mod_lt _ (by decide)⟩

/-- `op[7:4]`. -/
def opY (op : Word) : Reg := ⟨op.toNat / 16 % 16, Nat.mod_lt _ (by decide)⟩

/-- `op[3:0]`. -/
def opN (op : Word) : Fin 16 := ⟨op.toNat % 16, Nat.mod_lt _ (by decide)⟩

/-- `op[7:0]`. -/
def opNn (op : Word) : Byte := BitVec.ofNat 8 (op.toNat % 256)

/-- `op[11:0]`. -/
def opNnn (op : Word) : Addr := BitVec.ofNat 12 (op.toNat % 4096)

/-- Every opcode the row's mask and match select decodes to the row's instruction (opcode_table.json; INDEX.md "Row format"). -/
def Selects (mask pattern : Word) (f : Word → Instr) : Prop :=
  ∀ op : Word, op &&& mask = pattern → decodeWord op = .ok (f op)

/-- The illegal set as 30_encoding.md R101 lists it, SYS among it by decision D5. -/
def illegal (op : Word) : Bool :=
  let w := op.toNat
  match w / 4096 with
  | 0x0 => w != 0x00E0 && w != 0x00EE
  | 0x5 | 0x9 => w % 16 != 0
  | 0x8 => [0x8, 0x9, 0xA, 0xB, 0xC, 0xD, 0xF].contains (w % 16)
  | 0xE => !([0x9E, 0xA1].contains (w % 256))
  | 0xF => !([0x07, 0x0A, 0x15, 0x18, 0x1E, 0x29, 0x33, 0x55, 0x65].contains (w % 256))
  | _ => false

/-! The font. -/

/-- The five bytes of memory at the place of the sprite of digit `d`, top row first (10_state.md R41). -/
def glyphAt (m : Memory) (d : Nat) : List Byte := (List.range 5).map fun k => memRead m (0x050 + 5 * d + k)

/-- The memory holds the font: the table of 10_state.md R41, digit by digit, at 0x050 (GK3, D4, log 2). -/
def HoldsFont (m : Memory) : Prop :=
  glyphAt m 0x0 = [0xF0#8, 0x90#8, 0x90#8, 0x90#8, 0xF0#8] ∧
  glyphAt m 0x1 = [0x20#8, 0x60#8, 0x20#8, 0x20#8, 0x70#8] ∧
  glyphAt m 0x2 = [0xF0#8, 0x10#8, 0xF0#8, 0x80#8, 0xF0#8] ∧
  glyphAt m 0x3 = [0xF0#8, 0x10#8, 0xF0#8, 0x10#8, 0xF0#8] ∧
  glyphAt m 0x4 = [0x90#8, 0x90#8, 0xF0#8, 0x10#8, 0x10#8] ∧
  glyphAt m 0x5 = [0xF0#8, 0x80#8, 0xF0#8, 0x10#8, 0xF0#8] ∧
  glyphAt m 0x6 = [0xF0#8, 0x80#8, 0xF0#8, 0x90#8, 0xF0#8] ∧
  glyphAt m 0x7 = [0xF0#8, 0x10#8, 0x20#8, 0x40#8, 0x40#8] ∧
  glyphAt m 0x8 = [0xF0#8, 0x90#8, 0xF0#8, 0x90#8, 0xF0#8] ∧
  glyphAt m 0x9 = [0xF0#8, 0x90#8, 0xF0#8, 0x10#8, 0xF0#8] ∧
  glyphAt m 0xA = [0xF0#8, 0x90#8, 0xF0#8, 0x90#8, 0x90#8] ∧
  glyphAt m 0xB = [0xE0#8, 0x90#8, 0xE0#8, 0x90#8, 0xE0#8] ∧
  glyphAt m 0xC = [0xF0#8, 0x80#8, 0x80#8, 0x80#8, 0xF0#8] ∧
  glyphAt m 0xD = [0xE0#8, 0x90#8, 0x90#8, 0x90#8, 0xE0#8] ∧
  glyphAt m 0xE = [0xF0#8, 0x80#8, 0xF0#8, 0x80#8, 0xF0#8] ∧
  glyphAt m 0xF = [0xF0#8, 0x80#8, 0xF0#8, 0x80#8, 0x80#8]

/-! What each instruction may write, by the rules that say it for all of them. -/

/-- The general registers an instruction writes, VF as a flag included (10_state.md R22, R27). `LD Vx, K` writes V[x] only at the
completing step, which is no `exec`. -/
def regsWritten : Instr → List Reg
  | .ldImm x _ | .addImm x _ | .ldReg x _ | .orReg x _ | .andReg x _ | .xorReg x _ | .rnd x _ | .ldVxDt x => [x]
  | .addReg x _ | .sub x _ | .subn x _ | .shr x _ | .shl x _ => [x, Reg.flag]
  | .drw _ _ _ => [Reg.flag]
  | .ldRegs x => (List.finRange 16).filter (· ≤ x)
  | .cls | .ret | .sys _ | .jp _ | .call _ | .seImm _ _ | .sneImm _ _ | .seReg _ _ | .sneReg _ _ | .ldI _ => []
  | .jpV0 _ | .skp _ | .sknp _ | .ldVxK _ | .ldDtVx _ | .ldStVx _ | .addI _ | .ldF _ | .ldB _ | .stRegs _ => []

/-- The instructions that write VF as a flag (10_state.md R27). -/
def writesFlag : Instr → Bool
  | .addReg _ _ | .sub _ _ | .subn _ _ | .shr _ _ | .shl _ _ | .drw _ _ _ => true
  | .cls | .ret | .sys _ | .jp _ | .call _ | .seImm _ _ | .sneImm _ _ | .seReg _ _ | .sneReg _ _ | .ldI _ => false
  | .jpV0 _ | .skp _ | .sknp _ | .ldVxK _ | .ldDtVx _ | .ldStVx _ | .addI _ | .ldF _ | .ldB _ | .stRegs _ => false
  | .ldImm _ _ | .addImm _ _ | .ldReg _ _ | .orReg _ _ | .andReg _ _ | .xorReg _ _ | .rnd _ _ | .ldVxDt _ => false
  | .ldRegs _ => false

/-- SHR, SHL, the jump with offset and the two block transfers: the instructions the profile changes (00_scope.md R2). -/
def readsProfile : Instr → Bool
  | .shr _ _ | .shl _ _ | .jpV0 _ | .stRegs _ | .ldRegs _ => true
  | _ => false

/-- The register load, arithmetic and logic family (41_alu.md). -/
def isAlu : Instr → Bool
  | .ldImm _ _ | .addImm _ _ | .ldReg _ _ | .orReg _ _ | .andReg _ _ | .xorReg _ _ | .addReg _ _ | .sub _ _ => true
  | .subn _ _ | .shr _ _ | .shl _ _ | .rnd _ _ => true
  | _ => false

/-- CALL and RET (20_memory.md R75). -/
def usesStack : Instr → Bool
  | .call _ | .ret => true
  | _ => false

/-- CLS and DRW (43_display.md R190). -/
def writesDisplay : Instr → Bool
  | .cls | .drw _ _ _ => true
  | _ => false

/-- LD B,Vx and LD [I],Vx (20_memory.md R69, 10_state.md R38). -/
def writesMemory : Instr → Bool
  | .ldB _ | .stRegs _ => true
  | _ => false

/-- The instructions that write I: always three, two more in the original profile (10_state.md R23). -/
def writesIndex (p : Profile) : Instr → Bool
  | .ldI _ | .addI _ | .ldF _ => true
  | .stRegs _ | .ldRegs _ => p == .original
  | _ => false

/-! The display. -/

/-- A 1 bit of the sprite of `DRW Vx, Vy, n` lies over the pixel at (row, col): bit `7 - c` of the byte at I + r, drawn at row
`(y0 + r) mod 32` and column `(x0 + c) mod 64` (43_display.md R192, R194). -/
def spriteCovers (s : State) (x y : Reg) (n : Fin 16) (row : Fin 32) (col : Fin 64) : Prop :=
  ∃ r < n.val, ∃ c < 8, (memRead s.mem (s.i.toNat + r)).getLsbD (7 - c) = true ∧
    ((s.reg y).toNat % 32 + r) % 32 = row.val ∧ ((s.reg x).toNat % 64 + c) % 64 = col.val

end Sys2Proof.Machine
end

