-- ==== Sys2Proof/Certificates/Slice0/Obligations.lean ====
section
/-! DEFINITION. The statements for the provers. Each docstring names the rule of spec/ it formalises, and the spec's decision or the log
entry where it rests on one. `Unchanged w s t` says that every piece of the state but pc reads the same in `t` as in `s`, unless `w` names
it; memory is compared byte by byte through `memRead`. -/

open Sys2Proof Sys2Proof.Machine

/-! The step, the fetch, decoding. The encodings of all statements, `Selects` among them, are the spec's general knowledge GK1, GK2 and GK8
(UNVERIFIED, log 9). -/

/-- 30_encoding.md R90 (the waiting branch is decision D12): a waiting STEP fetches nothing; a running one decodes the opcode at pc
and is `exec` of what it decodes, with nothing around it; an opcode that decodes to nothing is `UnknownOpcode(pc, op)`. -/
def Obligations.StepRunsTheDecodedInstruction : Prop :=
  (∀ (s : State) (x : Reg), s.wait = .awaitingKey x → step s = .next (waitingStep x s)) ∧
  (∀ (s : State) (i : Instr), s.wait = .running → decodeWord (fetchWord s) = .ok i → step s = exec i s) ∧
  (∀ s : State, s.wait = .running → (∀ i, decodeWord (fetchWord s) ≠ .ok i) →
    step s = .fault (.unknownOpcode s.pc (fetchWord s)))

/-- 20_memory.md R62, R63: the byte at pc mod 4096 is the upper half of the opcode, the byte at (pc + 1) mod 4096 the lower one. -/
def Obligations.FetchReadsTwoWrappedBytes : Prop :=
  ∀ s : State, (fetchWord s).toNat =
    256 * (memRead s.mem (s.pc.toNat % 4096)).toNat + (memRead s.mem ((s.pc.toNat + 1) % 4096)).toNat

/-- 10_state.md R26 (D2): two values of pc that agree mod 4096 fetch the same opcode. -/
def Obligations.PcsThatAgreeModMemoryFetchTheSame : Prop :=
  ∀ (s : State) (p : Word), p.toNat % 4096 = s.pc.toNat % 4096 → fetchWord (s.setPc p) = fetchWord s

/-- 20_memory.md R73 (D21): two byte stores at pc, the high byte first, are what the next fetch reads. -/
def Obligations.FetchSeesAStoreAtPc : Prop :=
  ∀ (s : State) (hi lo : Byte), fetchWord (s.storeBytes s.pc.toNat [hi, lo]) = wordOfBytes hi lo

/-- 30_encoding.md R95 to R100, 95_test_vectors.md S9: words written out from the patterns, one or more of each family. -/
def Obligations.WordsWrittenFromThePatternsDecode : Prop :=
  decodeWord 0b0000000011100000#16 = .ok .cls ∧ decodeWord 0b0001001000000000#16 = .ok (.jp 0x200#12) ∧
  decodeWord 0b0011001100101010#16 = .ok (.seImm 3 0x2A#8) ∧ decodeWord 0b1000000000010110#16 = .ok (.shr 0 1) ∧
  decodeWord 0b1010001011110000#16 = .ok (.ldI 0x2F0#12) ∧ decodeWord 0b1111001100110011#16 = .ok (.ldB 3) ∧
  decodeWord 0b1101000100100101#16 = .ok (.drw 1 2 5) ∧ decodeWord 0b1111001100001010#16 = .ok (.ldVxK 3) ∧
  decodeWord 0b1111010100010101#16 = .ok (.ldDtVx 5)

/-- 30_encoding.md R91 to R100: the decoder reads back every well-formed instruction from its opcode, and from its two bytes whatever
bytes follow them. -/
def Obligations.DecodeOfEncode : Prop :=
  ∀ i : Instr, WellFormed i = true →
    decodeWord (encode i) = .ok i ∧ ∀ rest : List Byte, decodeBytes (encodeBytes i ++ rest) = .ok (i, rest)

/-- 30_encoding.md R95 to R101: whatever decodes, decodes to a well-formed instruction whose opcode it is; so no two opcodes name one
instruction. -/
def Obligations.EncodeOfDecode : Prop :=
  ∀ (op : Word) (i : Instr), decodeWord op = .ok i → WellFormed i = true ∧ encode i = op

/-- 30_encoding.md R101 with decision D5 (log 8) and GK1, GK8 (log 9): a running STEP that fetches an opcode of the illegal set, SYS among
them, is `UnknownOpcode(pc, op)`; a STEP is that fault only so; every other opcode decodes to an instruction other than SYS. -/
def Obligations.IllegalOpcodesFaultAndOthersDecode : Prop :=
  (∀ s : State, s.wait = .running → illegal (fetchWord s) = true → step s = .fault (.unknownOpcode s.pc (fetchWord s))) ∧
  (∀ (s : State) (a o : Word), step s = .fault (.unknownOpcode a o) →
    s.wait = .running ∧ illegal (fetchWord s) = true ∧ a = s.pc ∧ o = fetchWord s) ∧
  (∀ op : Word, illegal op = false → ∃ i, decodeWord op = .ok i ∧ ∀ nnn, i ≠ .sys nnn)

/-! Memory. -/

/-- 20_memory.md R61: a read returns the byte last written to the address it reaches mod 4096, for any addresses. -/
def Obligations.MemReadAfterMemWrite : Prop :=
  (∀ (m : Memory) (addr a : Nat) (b : Byte),
    memRead (memWrite m addr b) a = if a % 4096 = addr % 4096 then b else memRead m a) ∧
  (∀ (m : Memory) (a : Nat), memRead m a = memRead m (a % 4096))

/-- The model's representation of 20_memory.md R60 (log 1): memories in canonical form that read the same are the same data. -/
def Obligations.CanonicalMemoriesThatReadTheSameAreEqual : Prop :=
  ∀ m m' : Memory, m.wf = true → m'.wf = true → (∀ a : Fin 4096, memRead m a.val = memRead m' a.val) → m = m'

/-! Reset and LOAD. -/

/-- 10_state.md R40: the values the spec gives for the state after a successful LOAD, under either profile; the font is the 80 bytes of
R41, written out in `HoldsFont` (GK3, D4, log 2). The values the model chose (logs 1, 3, 4, 5, 6) are not stated. -/
def Obligations.ResetHoldsTheSpecsValues : Prop :=
  ∀ p : Profile,
    (∀ r : Reg, (State.resetUnder p).reg r = 0#8) ∧ (State.resetUnder p).i = 0#16 ∧
    (State.resetUnder p).pc = 0x0200#16 ∧ (State.resetUnder p).sp = 0 ∧ (State.resetUnder p).dt = 0#8 ∧
    (State.resetUnder p).st = 0#8 ∧ (∀ y x, (State.resetUnder p).fb.pixel y x = false) ∧
    (State.resetUnder p).wait = .running ∧ (State.resetUnder p).profile = p ∧
    HoldsFont (State.resetUnder p).mem ∧
    sound (State.resetUnder p) = false ∧ awaiting (State.resetUnder p) = false

/-- 70_reset_and_hazards.md R250 with D3, D12, D14: LOAD of a ROM of at most 3584 bytes, under any background image, any profile and from
any state. The font is the 80 bytes of R41, written out in `HoldsFont` (GK3, D4, log 2). KEY, stack[] and KEY_PREV are not written. -/
def Obligations.LoadSetsRegistersAndMemory : Prop :=
  ∀ (bg : Memory) (rom : List Byte) (p : Profile) (s : State), rom.length ≤ 3584 →
    ∃ t, load bg rom p s = .next t ∧
      (∀ r : Reg, t.reg r = 0#8) ∧ t.i = 0#16 ∧ t.pc = 0x0200#16 ∧ t.sp = 0 ∧ t.dt = 0#8 ∧ t.st = 0#8 ∧
      (∀ y x, t.fb.pixel y x = false) ∧ t.wait = .running ∧ t.profile = p ∧
      t.key = s.key ∧ t.stack = s.stack ∧ t.keyPrev = s.keyPrev ∧
      HoldsFont t.mem ∧ (∀ j < rom.length, memRead t.mem (0x200 + j) = rom.getD j 0#8) ∧
      (∀ a < 4096, ¬ (0x050 ≤ a ∧ a < 0x0A0) → ¬ (0x200 ≤ a ∧ a < 0x200 + rom.length) → memRead t.mem a = memRead bg a)

/-- 60_exceptions.md R224: LOAD fails with `RomTooLarge` exactly for a ROM longer than 3584 bytes, and else succeeds. -/
def Obligations.RomTooLargeExactlyAbove3584 : Prop :=
  ∀ (bg : Memory) (rom : List Byte) (p : Profile) (s : State),
    (load bg rom p s = .fault .romTooLarge ↔ 3585 ≤ rom.length) ∧
    ((∃ t, load bg rom p s = .next t) ↔ rom.length ≤ 3584)

/-! Invariants. -/

/-- 10_state.md R23, R40, R42: the state after reset, under either profile, meets the invariant. -/
def Obligations.ResetMeetsTheStateInvariant : Prop := ∀ p : Profile, (State.resetUnder p).Inv

/-- 10_state.md R23, R42 and the memory's canonical form (log 1): every step keeps I below 4096 and the memory canonical. -/
def Obligations.EveryStepKeepsTheStateInvariant : Prop := ∀ s t : State, s.Inv → step s = .next t → t.Inv

/-- The same of every history of whole transactions, LOAD with a canonical background among them (00_scope.md R7, R8; log 16). -/
def Obligations.EveryHistoryKeepsTheStateInvariant : Prop :=
  ∀ (ts : List Transaction) (s t : State), s.Inv → (∀ e ∈ ts, e.wf) → runHistory ts s = .next t → t.Inv

/-! Rules over all instructions. -/

/-- 60_exceptions.md R220, R221, R222, R223, R225, R227 (SYS by D5): a step faults only for an illegal opcode, for a CALL with 16 live
entries or for a RET with none, and it is never refused. -/
def Obligations.StepFaultsOnlyAsTheSpecSays : Prop :=
  (∀ (s : State) (f : Fault), step s = .fault f → s.wait = .running ∧
    ((illegal (fetchWord s) = true ∧ f = .unknownOpcode s.pc (fetchWord s)) ∨
     (∃ nnn, decodeWord (fetchWord s) = .ok (.call nnn) ∧ s.sp.val = 16 ∧ f = .stackOverflow) ∨
     (decodeWord (fetchWord s) = .ok .ret ∧ s.sp.val = 0 ∧ f = .stackUnderflow))) ∧
  (∀ (s : State) (r : Refusal), step s ≠ .refused r)

/-- 60_exceptions.md R229: a faulting step faults again, with the same information, after any TICK and SET_KEY transactions. -/
def Obligations.FaultRecursAfterTicksAndKeys : Prop :=
  ∀ (s : State) (f : Fault) (ts : List Transaction), step s = .fault f → (∀ e ∈ ts, e.isEvent) →
    ∃ t, runHistory ts s = .next t ∧ step t = .fault f

/-- 00_scope.md R2, 10_state.md R37: two profiles; LOAD chooses one, and no step, TICK or SET_KEY changes it; only the shifts, the jump
with offset and the block transfers depend on it, and each of those five does. -/
def Obligations.ProfileChangesOnlyThreeBehaviours : Prop :=
  (∀ p : Profile, p = .original ∨ p = .modern) ∧
  (∀ s t : State, step s = .next t → t.profile = s.profile) ∧
  (∀ (s : State) (k : Key) (b : Bool), (tick s).profile = s.profile ∧ (setKey k b s).profile = s.profile) ∧
  (∀ (bg : Memory) (rom : List Byte) (p : Profile) (s t : State), load bg rom p s = .next t → t.profile = p) ∧
  (∀ (s : State) (p : Profile) (x : Reg) (k : Key) (b : Bool),
    waitingStep x (s.withProfile p) = (waitingStep x s).withProfile p ∧ tick (s.withProfile p) = (tick s).withProfile p ∧
    setKey k b (s.withProfile p) = (setKey k b s).withProfile p) ∧
  (∀ (i : Instr) (s : State) (p : Profile), readsProfile i = false →
    exec i (s.withProfile p) = onNext (·.withProfile p) (exec i s)) ∧
  (∃ s t u : State, exec (.shr 0 1) (s.withProfile .original) = .next t ∧
    exec (.shr 0 1) (s.withProfile .modern) = .next u ∧ t.reg 0 ≠ u.reg 0) ∧
  (∃ s t u : State, exec (.shl 0 1) (s.withProfile .original) = .next t ∧
    exec (.shl 0 1) (s.withProfile .modern) = .next u ∧ t.reg 0 ≠ u.reg 0) ∧
  (∃ s t u : State, exec (.jpV0 0x100#12) (s.withProfile .original) = .next t ∧
    exec (.jpV0 0x100#12) (s.withProfile .modern) = .next u ∧ t.pc ≠ u.pc) ∧
  (∀ (s : State) (x : Reg), ∃ t u, exec (.stRegs x) (s.withProfile .original) = .next t ∧
    exec (.stRegs x) (s.withProfile .modern) = .next u ∧ t.i ≠ u.i) ∧
  (∀ (s : State) (x : Reg), ∃ t u, exec (.ldRegs x) (s.withProfile .original) = .next t ∧
    exec (.ldRegs x) (s.withProfile .modern) = .next u ∧ t.i ≠ u.i)

/-- 10_state.md R30, 20_memory.md R75 (D19): only CALL and RET touch the stack and its depth. -/
def Obligations.OnlyCallAndRetTouchTheStack : Prop :=
  ∀ (i : Instr) (s t : State), usesStack i = false → exec i s = .next t → t.sp = s.sp ∧ t.stack = s.stack

/-- 43_display.md R190: of the steps only CLS and DRW write the framebuffer, and the observation is the framebuffer. -/
def Obligations.OnlyClsAndDrwWriteTheDisplay : Prop :=
  (∀ (i : Instr) (s t : State), writesDisplay i = false → exec i s = .next t → t.fb = s.fb) ∧
  (∀ (x : Reg) (s : State), (waitingStep x s).fb = s.fb) ∧
  (∀ s : State, framebuffer s = s.fb)

/-- 10_state.md R38, 20_memory.md R69: of the steps only LD B,Vx and LD [I],Vx write memory. -/
def Obligations.OnlyBcdAndBlockStoreWriteMemory : Prop :=
  (∀ (i : Instr) (s t : State), writesMemory i = false → exec i s = .next t → t.mem = s.mem) ∧
  (∀ (x : Reg) (s : State), (waitingStep x s).mem = s.mem)

/-- 10_state.md R23: I is written only by LD I, ADD I and LD F, and in the original profile by the block transfers; what is written is
below 4096, from any state. -/
def Obligations.IndexIsWrittenMaskedAndByFewInstructions : Prop :=
  (∀ (i : Instr) (s t : State), writesIndex s.profile i = false → exec i s = .next t → t.i = s.i) ∧
  (∀ (i : Instr) (s t : State), writesIndex s.profile i = true → exec i s = .next t → t.i.toNat < 4096)

/-- 10_state.md R28, R29, R35, 60_exceptions.md R235: a step writes DT only in LD DT,Vx and ST only in LD ST,Vx, so it never counts them
down, and it never writes KEY. -/
def Obligations.StepsNeverTickTimersNorWriteKeys : Prop :=
  ∀ s t : State, step s = .next t →
    t.key = s.key ∧
    ((∀ x, decodeWord (fetchWord s) ≠ .ok (.ldDtVx x)) → t.dt = s.dt) ∧
    ((∀ x, decodeWord (fetchWord s) ≠ .ok (.ldStVx x)) → t.st = s.st)

/-- 10_state.md R22, R27: an instruction writes no general register but those R22 lists for it, VF as a flag included. -/
def Obligations.InstructionsWriteOnlyTheirRegisters : Prop :=
  ∀ (i : Instr) (s t : State) (r : Reg), r ∉ regsWritten i → exec i s = .next t → t.reg r = s.reg r

/-- 10_state.md R21, R27, R42: after an instruction that writes VF as a flag, VF is 0 or 1, whatever it named as its destination. -/
def Obligations.VfIsZeroOrOneAfterAFlagInstruction : Prop :=
  ∀ (i : Instr) (s t : State), writesFlag i = true → exec i s = .next t →
    t.reg Reg.flag = 0#8 ∨ t.reg Reg.flag = 1#8

/-- 41_alu.md R140: every instruction of the family completes, writes `next` to pc, and touches nothing but general registers (and, for
RND, the model's count of draws, log 6). -/
def Obligations.AluFamilyTouchesOnlyRegisters : Prop :=
  ∀ (i : Instr) (s : State), isAlu i = true →
    ∃ t, exec i s = .next t ∧ t.pc.toNat = (s.pc.toNat + 2) % 65536 ∧
      Unchanged (fun p => p.isRegUpTo 15 ∨ (p = .draws ∧ ∃ x nn, i = .rnd x nn)) s t

/-! Control flow. -/

/-- 40_control_flow.md R123. -/
def Obligations.JumpSetsPcToItsAddress : Prop :=
  Selects 0xF000#16 0x1000#16 (fun op => .jp (opNnn op)) ∧
  ∀ (nnn : Addr) (s : State), ∃ t, exec (.jp nnn) s = .next t ∧ t.pc.toNat = nnn.toNat ∧ Unchanged (fun _ => False) s t

/-- 40_control_flow.md R124: with fewer than 16 live entries the full 16-bit `next` is pushed; with 16 the step is `StackOverflow`. -/
def Obligations.CallPushesNextAndJumps : Prop :=
  Selects 0xF000#16 0x2000#16 (fun op => .call (opNnn op)) ∧
  (∀ (nnn : Addr) (s : State) (j : Fin 16), s.sp.val = j.val →
    ∃ t, exec (.call nnn) s = .next t ∧ t.stack[j.val].toNat = (s.pc.toNat + 2) % 65536 ∧ t.sp.val = s.sp.val + 1 ∧
      t.pc.toNat = nnn.toNat ∧ Unchanged (· ∈ [.depth, .slot j]) s t) ∧
  (∀ (nnn : Addr) (s : State), s.sp.val = 16 → exec (.call nnn) s = .fault .stackOverflow)

/-- 40_control_flow.md R122: with a live entry it is popped into pc and stays in its slot; with none the step is `StackUnderflow`. -/
def Obligations.RetPopsIntoPc : Prop :=
  Selects 0xFFFF#16 0x00EE#16 (fun _ => .ret) ∧
  (∀ (s : State) (j : Fin 16), s.sp.val = j.val + 1 →
    ∃ t, exec .ret s = .next t ∧ t.pc = s.stack[j.val] ∧ t.sp.val = j.val ∧ Unchanged (· = .depth) s t) ∧
  (∀ s : State, s.sp.val = 0 → exec .ret s = .fault .stackUnderflow)

/-- 10_state.md R32, 95_test_vectors.md S3: a CALL with a free slot and then a RET come back to `next`, at the depth before the call,
with every other piece of the state but the used slot as it was. -/
def Obligations.CallThenRetComesBack : Prop :=
  ∀ (nnn : Addr) (s : State) (j : Fin 16), s.sp.val = j.val →
    ∃ t u, exec (.call nnn) s = .next t ∧ exec .ret t = .next u ∧
      u.pc.toNat = (s.pc.toNat + 2) % 65536 ∧ Unchanged (· = .slot j) s u

/-- 40_control_flow.md R125, R126: pc moves by 4 when the skip is taken and by 2 when not, and nothing else changes. -/
def Obligations.SkipsOnImmediateMovePcByFourOrTwo : Prop :=
  Selects 0xF000#16 0x3000#16 (fun op => .seImm (opX op) (opNn op)) ∧
  Selects 0xF000#16 0x4000#16 (fun op => .sneImm (opX op) (opNn op)) ∧
  (∀ (x : Reg) (nn : Byte) (s : State), ∃ t, exec (.seImm x nn) s = .next t ∧
    t.pc.toNat = (s.pc.toNat + if s.reg x = nn then 4 else 2) % 65536 ∧ Unchanged (fun _ => False) s t) ∧
  (∀ (x : Reg) (nn : Byte) (s : State), ∃ t, exec (.sneImm x nn) s = .next t ∧
    t.pc.toNat = (s.pc.toNat + if s.reg x = nn then 2 else 4) % 65536 ∧ Unchanged (fun _ => False) s t)

/-- 40_control_flow.md R127, R128 with GK8 (log 9), that a low nibble other than 0 is no instruction: pc moves by 4 when the skip is taken
and by 2 when not, and nothing else changes. -/
def Obligations.SkipsOnRegistersMovePcByFourOrTwo : Prop :=
  Selects 0xF00F#16 0x5000#16 (fun op => .seReg (opX op) (opY op)) ∧
  Selects 0xF00F#16 0x9000#16 (fun op => .sneReg (opX op) (opY op)) ∧
  (∀ op : Word, op &&& 0xF000#16 = 0x5000#16 ∨ op &&& 0xF000#16 = 0x9000#16 → op &&& 0x000F#16 ≠ 0#16 →
    decodeWord op = .unassigned op) ∧
  (∀ (x y : Reg) (s : State), ∃ t, exec (.seReg x y) s = .next t ∧
    t.pc.toNat = (s.pc.toNat + if s.reg x = s.reg y then 4 else 2) % 65536 ∧ Unchanged (fun _ => False) s t) ∧
  (∀ (x y : Reg) (s : State), ∃ t, exec (.sneReg x y) s = .next t ∧
    t.pc.toNat = (s.pc.toNat + if s.reg x = s.reg y then 2 else 4) % 65536 ∧ Unchanged (fun _ => False) s t)

/-- 40_control_flow.md R129 with D17 (log 7) and 90_conflicts.md C4: the 16-bit sum of nnn and V0 (original) or V[nnn[11:8]] (modern). -/
def Obligations.JumpWithOffsetAddsTheProfilesRegister : Prop :=
  Selects 0xF000#16 0xB000#16 (fun op => .jpV0 (opNnn op)) ∧
  ∀ (nnn : Addr) (s : State), ∃ t, exec (.jpV0 nnn) s = .next t ∧
    (s.profile = .original → t.pc.toNat = nnn.toNat + (s.reg 0).toNat) ∧
    (s.profile = .modern → ∀ x : Reg, x.val = nnn.toNat / 256 → t.pc.toNat = nnn.toNat + (s.reg x).toNat) ∧
    Unchanged (fun _ => False) s t

/-- 40_control_flow.md R121, the model following decision D5 (log 8): SYS always stops with `UnknownOpcode(pc, op)`. -/
def Obligations.SysAlwaysFaults : Prop :=
  (∀ op : Word, op &&& 0xF000#16 = 0x0000#16 → op ≠ 0x00E0#16 → op ≠ 0x00EE#16 → decodeWord op = .ok (.sys (opNnn op))) ∧
  ∀ (nnn : Addr) (s : State), ∃ op : Word, op.toNat = nnn.toNat ∧ exec (.sys nnn) s = .fault (.unknownOpcode s.pc op)

/-! Register load, arithmetic and logic. -/

/-- 41_alu.md R141, R142: load immediate, and add immediate mod 256 with no flag. -/
def Obligations.ImmediateLoadAndAddWriteOneRegister : Prop :=
  Selects 0xF000#16 0x6000#16 (fun op => .ldImm (opX op) (opNn op)) ∧
  Selects 0xF000#16 0x7000#16 (fun op => .addImm (opX op) (opNn op)) ∧
  (∀ (x : Reg) (nn : Byte) (s : State), ∃ t, exec (.ldImm x nn) s = .next t ∧ t.reg x = nn ∧
    t.pc.toNat = (s.pc.toNat + 2) % 65536 ∧ Unchanged (· = .reg x) s t) ∧
  (∀ (x : Reg) (nn : Byte) (s : State), ∃ t, exec (.addImm x nn) s = .next t ∧
    (t.reg x).toNat = ((s.reg x).toNat + nn.toNat) % 256 ∧
    t.pc.toNat = (s.pc.toNat + 2) % 65536 ∧ Unchanged (· = .reg x) s t)

/-- 41_alu.md R143 (GK5, log 25), R144, R145, R146 with D7 (log 10): the copy, and the logic bit by bit; VF is not written as a flag. -/
def Obligations.CopyAndLogicWriteOneRegisterAndNoFlag : Prop :=
  Selects 0xF00F#16 0x8000#16 (fun op => .ldReg (opX op) (opY op)) ∧
  Selects 0xF00F#16 0x8001#16 (fun op => .orReg (opX op) (opY op)) ∧
  Selects 0xF00F#16 0x8002#16 (fun op => .andReg (opX op) (opY op)) ∧
  Selects 0xF00F#16 0x8003#16 (fun op => .xorReg (opX op) (opY op)) ∧
  (∀ (x y : Reg) (s : State), ∃ t, exec (.ldReg x y) s = .next t ∧ t.reg x = s.reg y ∧
    t.pc.toNat = (s.pc.toNat + 2) % 65536 ∧ Unchanged (· = .reg x) s t) ∧
  (∀ (x y : Reg) (s : State), ∃ t, exec (.orReg x y) s = .next t ∧
    (∀ k < 8, (t.reg x).getLsbD k = ((s.reg x).getLsbD k || (s.reg y).getLsbD k)) ∧
    t.pc.toNat = (s.pc.toNat + 2) % 65536 ∧ Unchanged (· = .reg x) s t) ∧
  (∀ (x y : Reg) (s : State), ∃ t, exec (.andReg x y) s = .next t ∧
    (∀ k < 8, (t.reg x).getLsbD k = ((s.reg x).getLsbD k && (s.reg y).getLsbD k)) ∧
    t.pc.toNat = (s.pc.toNat + 2) % 65536 ∧ Unchanged (· = .reg x) s t) ∧
  (∀ (x y : Reg) (s : State), ∃ t, exec (.xorReg x y) s = .next t ∧
    (∀ k < 8, (t.reg x).getLsbD k = ((s.reg x).getLsbD k ^^ (s.reg y).getLsbD k)) ∧
    t.pc.toNat = (s.pc.toNat + 2) % 65536 ∧ Unchanged (· = .reg x) s t)

/-- 41_alu.md R147: V[x] is the sum mod 256 unless x is VF, VF is the carry, from the operands before the step. -/
def Obligations.AddWritesSumThenCarry : Prop :=
  Selects 0xF00F#16 0x8004#16 (fun op => .addReg (opX op) (opY op)) ∧
  ∀ (x y : Reg) (s : State), ∃ t, exec (.addReg x y) s = .next t ∧
    (x ≠ Reg.flag → (t.reg x).toNat = ((s.reg x).toNat + (s.reg y).toNat) % 256) ∧
    (t.reg Reg.flag).toNat = (if (s.reg x).toNat + (s.reg y).toNat > 255 then 1 else 0) ∧
    t.pc.toNat = (s.pc.toNat + 2) % 65536 ∧ Unchanged (· ∈ [.reg x, .reg Reg.flag]) s t

/-- 41_alu.md R148, R151 with D9, GK7 (log 12): the difference mod 256, then VF = 1 when there is no borrow. -/
def Obligations.SubtractionsWriteDifferenceThenNoBorrow : Prop :=
  Selects 0xF00F#16 0x8005#16 (fun op => .sub (opX op) (opY op)) ∧
  Selects 0xF00F#16 0x8007#16 (fun op => .subn (opX op) (opY op)) ∧
  (∀ (x y : Reg) (s : State), ∃ t, exec (.sub x y) s = .next t ∧
    (x ≠ Reg.flag → ((t.reg x).toNat : Int) = (((s.reg x).toNat : Int) - (s.reg y).toNat) % 256) ∧
    (t.reg Reg.flag).toNat = (if (s.reg x).toNat ≥ (s.reg y).toNat then 1 else 0) ∧
    t.pc.toNat = (s.pc.toNat + 2) % 65536 ∧ Unchanged (· ∈ [.reg x, .reg Reg.flag]) s t) ∧
  (∀ (x y : Reg) (s : State), ∃ t, exec (.subn x y) s = .next t ∧
    (x ≠ Reg.flag → ((t.reg x).toNat : Int) = (((s.reg y).toNat : Int) - (s.reg x).toNat) % 256) ∧
    (t.reg Reg.flag).toNat = (if (s.reg y).toNat ≥ (s.reg x).toNat then 1 else 0) ∧
    t.pc.toNat = (s.pc.toNat + 2) % 65536 ∧ Unchanged (· ∈ [.reg x, .reg Reg.flag]) s t)

/-- 41_alu.md R149, R150, R152 with GK11 (log 25), the shift by one place: the source is V[y] in the original profile and V[x] in the modern one; one place, and VF is the bit
shifted out. -/
def Obligations.ShiftsMoveOnePlaceAndReportTheLostBit : Prop :=
  Selects 0xF00F#16 0x8006#16 (fun op => .shr (opX op) (opY op)) ∧
  Selects 0xF00F#16 0x800E#16 (fun op => .shl (opX op) (opY op)) ∧
  (∀ (x y z : Reg) (s : State), (s.profile = .original ∧ z = y) ∨ (s.profile = .modern ∧ z = x) →
    ∃ t, exec (.shr x y) s = .next t ∧
      (x ≠ Reg.flag → (t.reg x).toNat = (s.reg z).toNat / 2) ∧ (t.reg Reg.flag).toNat = (s.reg z).toNat % 2 ∧
      t.pc.toNat = (s.pc.toNat + 2) % 65536 ∧ Unchanged (· ∈ [.reg x, .reg Reg.flag]) s t) ∧
  (∀ (x y z : Reg) (s : State), (s.profile = .original ∧ z = y) ∨ (s.profile = .modern ∧ z = x) →
    ∃ t, exec (.shl x y) s = .next t ∧
      (x ≠ Reg.flag → (t.reg x).toNat = 2 * (s.reg z).toNat % 256) ∧ (t.reg Reg.flag).toNat = (s.reg z).toNat / 128 ∧
      t.pc.toNat = (s.pc.toNat + 2) % 65536 ∧ Unchanged (· ∈ [.reg x, .reg Reg.flag]) s t)

/-- 41_alu.md R154 (GK5, log 25; D13, the free value of log 6): whatever byte the stream gives, V[x] is that byte under the mask, and the next
draw is a fresh one. -/
def Obligations.RndWritesTheDrawnByteUnderTheMask : Prop :=
  Selects 0xF000#16 0xC000#16 (fun op => .rnd (opX op) (opNn op)) ∧
  ∀ (x : Reg) (nn : Byte) (s : State), ∃ t, exec (.rnd x nn) s = .next t ∧
    (∀ k < 8, (t.reg x).getLsbD k = ((Config.rndByte s.draws).getLsbD k && nn.getLsbD k)) ∧ t.draws = s.draws + 1 ∧
    t.pc.toNat = (s.pc.toNat + 2) % 65536 ∧ Unchanged (· ∈ [.reg x, .draws]) s t

/-- 00_scope.md R7, 41_alu.md R154 (GK5, D13): the transaction STEP(rnd), for every `rnd`: it is `step` unless a running engine
fetches RND; a fetched RND writes that byte under the mask; and `step` is the STEP whose byte is the next of the free stream (log 6). -/
def Obligations.StepWithAnyRandomByte : Prop :=
  (∀ (r : Byte) (s : State), (s.wait = .running → ∀ x nn, decodeWord (fetchWord s) ≠ .ok (.rnd x nn)) →
    stepWith r s = step s) ∧
  (∀ (r : Byte) (s : State) (x : Reg) (nn : Byte), s.wait = .running → decodeWord (fetchWord s) = .ok (.rnd x nn) →
    ∃ t, stepWith r s = .next t ∧ (∀ k < 8, (t.reg x).getLsbD k = (r.getLsbD k && nn.getLsbD k)) ∧
      t.pc.toNat = (s.pc.toNat + 2) % 65536 ∧ Unchanged (· = .reg x) s t) ∧
  (∀ (s t : State), step s = .next t →
    ∃ u, stepWith (Config.rndByte s.draws) s = .next u ∧ u.pc = t.pc ∧ Unchanged (· = .draws) u t)

/-! Index register and memory. -/

/-- 42_index_memory.md R171 (GK5, log 25). -/
def Obligations.LoadIndexWritesItsAddress : Prop :=
  Selects 0xF000#16 0xA000#16 (fun op => .ldI (opNnn op)) ∧
  ∀ (nnn : Addr) (s : State), ∃ t, exec (.ldI nnn) s = .next t ∧ t.i.toNat = nnn.toNat ∧
    t.pc.toNat = (s.pc.toNat + 2) % 65536 ∧ Unchanged (· = .index) s t

/-- 42_index_memory.md R172 (GK5, D18; logs 25 and 19) and R173 (GK5, D4, D11; logs 25, 2 and 14). -/
def Obligations.AddIndexAndFontAddressWriteIndexMasked : Prop :=
  Selects 0xF0FF#16 0xF01E#16 (fun op => .addI (opX op)) ∧
  Selects 0xF0FF#16 0xF029#16 (fun op => .ldF (opX op)) ∧
  (∀ (x : Reg) (s : State), ∃ t, exec (.addI x) s = .next t ∧
    t.i.toNat = (s.i.toNat + (s.reg x).toNat) % 4096 ∧
    t.pc.toNat = (s.pc.toNat + 2) % 65536 ∧ Unchanged (· = .index) s t) ∧
  (∀ (x : Reg) (s : State), ∃ t, exec (.ldF x) s = .next t ∧
    t.i.toNat = 0x050 + 5 * ((s.reg x).toNat % 16) ∧
    t.pc.toNat = (s.pc.toNat + 2) % 65536 ∧ Unchanged (· = .index) s t)

/-- 42_index_memory.md R174: the digits at I, I + 1 and I + 2, each address mod 4096; I and every other byte unchanged. -/
def Obligations.BcdStoresThreeDigits : Prop :=
  Selects 0xF0FF#16 0xF033#16 (fun op => .ldB (opX op)) ∧
  ∀ (x : Reg) (s : State), ∃ t, exec (.ldB x) s = .next t ∧
    (memRead t.mem s.i.toNat).toNat = (s.reg x).toNat / 100 ∧
    (memRead t.mem (s.i.toNat + 1)).toNat = (s.reg x).toNat / 10 % 10 ∧
    (memRead t.mem (s.i.toNat + 2)).toNat = (s.reg x).toNat % 10 ∧
    t.pc.toNat = (s.pc.toNat + 2) % 65536 ∧
    Unchanged (· ∈ [.byte (cellOf s.i.toNat), .byte (cellOf (s.i.toNat + 1)), .byte (cellOf (s.i.toNat + 2))]) s t

/-- 42_index_memory.md R176 with GK9 (log 25), the block V0 to Vx: V[k] at I + k mod 4096 for k from 0 to x; I moves by x + 1, masked, in the original profile only; every
other byte unchanged. -/
def Obligations.BlockStoreWritesTheRegisters : Prop :=
  Selects 0xF0FF#16 0xF055#16 (fun op => .stRegs (opX op)) ∧
  ∀ (x : Reg) (s : State), ∃ t, exec (.stRegs x) s = .next t ∧
    (∀ k : Reg, k ≤ x → memRead t.mem (s.i.toNat + k.val) = s.reg k) ∧
    (s.profile = .original → t.i.toNat = (s.i.toNat + x.val + 1) % 4096) ∧
    (s.profile = .modern → t.i = s.i) ∧
    t.pc.toNat = (s.pc.toNat + 2) % 65536 ∧
    Unchanged (fun p => p = .index ∨ ∃ k : Reg, k ≤ x ∧ p = .byte (cellOf (s.i.toNat + k.val))) s t

/-- 42_index_memory.md R177 with GK9 (log 25), the block V0 to Vx: V[k] from I + k mod 4096 for k from 0 to x; I moves by x + 1, masked, in the original profile only; the
registers above x and all of memory unchanged. -/
def Obligations.BlockLoadReadsTheRegisters : Prop :=
  Selects 0xF0FF#16 0xF065#16 (fun op => .ldRegs (opX op)) ∧
  ∀ (x : Reg) (s : State), ∃ t, exec (.ldRegs x) s = .next t ∧
    (∀ k : Reg, k ≤ x → t.reg k = memRead s.mem (s.i.toNat + k.val)) ∧
    (s.profile = .original → t.i.toNat = (s.i.toNat + x.val + 1) % 4096) ∧
    (s.profile = .modern → t.i = s.i) ∧
    t.pc.toNat = (s.pc.toNat + 2) % 65536 ∧
    Unchanged (fun p => p = .index ∨ p.isRegUpTo x) s t

/-! Display. -/

/-- 43_display.md R191. -/
def Obligations.ClsClearsEveryPixel : Prop :=
  Selects 0xFFFF#16 0x00E0#16 (fun _ => .cls) ∧
  ∀ s : State, ∃ t, exec .cls s = .next t ∧ (∀ y x, t.fb.pixel y x = false) ∧
    t.pc.toNat = (s.pc.toNat + 2) % 65536 ∧ Unchanged (·.isPixel) s t

/-- 43_display.md R192, R193, R194 (GK4, D6, D8; logs 9, 11, 17): exactly the pixels under a 1 bit of the sprite are inverted, and VF is 1
when one of them was lit and else 0. -/
def Obligations.DrawXorsTheSpriteAndReportsCollision : Prop :=
  Selects 0xF000#16 0xD000#16 (fun op => .drw (opX op) (opY op) (opN op)) ∧
  ∀ (x y : Reg) (n : Fin 16) (s : State), ∃ t, exec (.drw x y n) s = .next t ∧
    (∀ row col, spriteCovers s x y n row col → t.fb.pixel row col = !s.fb.pixel row col) ∧
    (∀ row col, ¬ spriteCovers s x y n row col → t.fb.pixel row col = s.fb.pixel row col) ∧
    ((∃ row col, spriteCovers s x y n row col ∧ s.fb.pixel row col = true) → t.reg Reg.flag = 1#8) ∧
    ((∀ row col, spriteCovers s x y n row col → s.fb.pixel row col = false) → t.reg Reg.flag = 0#8) ∧
    t.pc.toNat = (s.pc.toNat + 2) % 65536 ∧ Unchanged (fun p => p = .reg Reg.flag ∨ p.isPixel) s t

/-- 43_display.md R195: two draws of the same sprite at the same place leave the display as it was, and the second one's VF is 1 exactly
when the first one lit a pixel. The places are the same when neither position register is VF or the first draw leaves VF as it was. -/
def Obligations.DrawingTwiceRestoresTheDisplay : Prop :=
  ∀ (x y : Reg) (n : Fin 16) (s : State), ∃ t u, exec (.drw x y n) s = .next t ∧ exec (.drw x y n) t = .next u ∧
    ((x ≠ Reg.flag ∧ y ≠ Reg.flag) ∨ t.reg Reg.flag = s.reg Reg.flag →
      (∀ row col, u.fb.pixel row col = s.fb.pixel row col) ∧
      ((∃ row col, spriteCovers s x y n row col ∧ s.fb.pixel row col = false) → u.reg Reg.flag = 1#8) ∧
      ((∀ row col, spriteCovers s x y n row col → s.fb.pixel row col = true) → u.reg Reg.flag = 0#8))

/-! Keypad and timers. -/

/-- 44_keypad_timers.md R201, R202 with GK5 and D11 (logs 25 and 14): the key is the low nibble of V[x]. -/
def Obligations.KeySkipsTestTheNamedKey : Prop :=
  Selects 0xF0FF#16 0xE09E#16 (fun op => .skp (opX op)) ∧
  Selects 0xF0FF#16 0xE0A1#16 (fun op => .sknp (opX op)) ∧
  (∀ (x : Reg) (k : Key) (s : State), k.val = (s.reg x).toNat % 16 → ∃ t, exec (.skp x) s = .next t ∧
    t.pc.toNat = (s.pc.toNat + if s.key[k.val] = true then 4 else 2) % 65536 ∧ Unchanged (fun _ => False) s t) ∧
  (∀ (x : Reg) (k : Key) (s : State), k.val = (s.reg x).toNat % 16 → ∃ t, exec (.sknp x) s = .next t ∧
    t.pc.toNat = (s.pc.toNat + if s.key[k.val] = true then 2 else 4) % 65536 ∧ Unchanged (fun _ => False) s t)

/-- 44_keypad_timers.md R204 with D12 (log 15): the entry step never completes the wait; pc and V[x] are not written. -/
def Obligations.KeyWaitEntersTheSubState : Prop :=
  Selects 0xF0FF#16 0xF00A#16 (fun op => .ldVxK (opX op)) ∧
  ∀ (x : Reg) (s : State), ∃ t, exec (.ldVxK x) s = .next t ∧ t.wait = .awaitingKey x ∧ awaiting t = true ∧
    (∀ k : Key, t.keyPrev[k.val] = s.key[k.val]) ∧ t.pc = s.pc ∧
    Unchanged (fun p => p = .wait ∨ p.isKeyPrev) s t

/-- 44_keypad_timers.md R205 with D12 (log 15): with no rising key only the snapshot is taken again; else the lowest rising key is written
to V[x], the wait ends and pc moves on. A key rises when it is down and was up in the snapshot. -/
def Obligations.WaitingStepTakesTheLowestRisingKey : Prop :=
  (∀ (x : Reg) (s : State), s.wait = .awaitingKey x → (∀ k : Key, s.key[k.val] = true → s.keyPrev[k.val] = true) →
    ∃ t, step s = .next t ∧ (∀ k : Key, t.keyPrev[k.val] = s.key[k.val]) ∧ t.pc = s.pc ∧ awaiting t = true ∧
      Unchanged (·.isKeyPrev) s t) ∧
  (∀ (x : Reg) (s : State) (k : Key), s.wait = .awaitingKey x → s.key[k.val] = true → s.keyPrev[k.val] = false →
    (∀ j : Key, j < k → s.key[j.val] = true → s.keyPrev[j.val] = true) →
    ∃ t, step s = .next t ∧ (t.reg x).toNat = k.val ∧ (∀ j : Key, t.keyPrev[j.val] = s.key[j.val]) ∧
      t.wait = .running ∧ awaiting t = false ∧ t.pc.toNat = (s.pc.toNat + 2) % 65536 ∧
      Unchanged (fun p => p = .wait ∨ p = .reg x ∨ p.isKeyPrev) s t)

/-- 44_keypad_timers.md R203, R207 (GK5, log 25). -/
def Obligations.DelayTimerMoves : Prop :=
  Selects 0xF0FF#16 0xF007#16 (fun op => .ldVxDt (opX op)) ∧
  Selects 0xF0FF#16 0xF015#16 (fun op => .ldDtVx (opX op)) ∧
  (∀ (x : Reg) (s : State), ∃ t, exec (.ldVxDt x) s = .next t ∧ t.reg x = s.dt ∧
    t.pc.toNat = (s.pc.toNat + 2) % 65536 ∧ Unchanged (· = .reg x) s t) ∧
  (∀ (x : Reg) (s : State), ∃ t, exec (.ldDtVx x) s = .next t ∧ t.dt = s.reg x ∧
    t.pc.toNat = (s.pc.toNat + 2) % 65536 ∧ Unchanged (· = .delay) s t)

/-- 44_keypad_timers.md R208 (GK5, log 25): the sound is on at once exactly when V[x] > 0; and no instruction reads ST. -/
def Obligations.SoundTimerMoveAndNoReaderOfIt : Prop :=
  Selects 0xF0FF#16 0xF018#16 (fun op => .ldStVx (opX op)) ∧
  (∀ (x : Reg) (s : State), ∃ t, exec (.ldStVx x) s = .next t ∧ t.st = s.reg x ∧
    (sound t = true ↔ 0 < (s.reg x).toNat) ∧
    t.pc.toNat = (s.pc.toNat + 2) % 65536 ∧ Unchanged (· = .sound) s t) ∧
  (∀ (i : Instr) (s : State) (b : Byte), (∀ x, i ≠ .ldStVx x) → exec i (s.setSt b) = onNext (·.setSt b) (exec i s)) ∧
  (∀ (x : Reg) (s : State) (b : Byte), exec (.ldStVx x) (s.setSt b) = exec (.ldStVx x) s)

/-- 60_exceptions.md R236: TICK counts each timer down by one, floored at 0, and writes nothing else, pc included. -/
def Obligations.TickCountsBothTimersDownToZero : Prop :=
  ∀ s : State, transact .tick s = .next (tick s) ∧
    (tick s).dt.toNat = s.dt.toNat - 1 ∧ (tick s).st.toNat = s.st.toNat - 1 ∧
    (tick s).pc = s.pc ∧ Unchanged (· ∈ [.delay, .sound]) s (tick s)

/-- 44_keypad_timers.md R200 (the range of k is D14): SET_KEY writes one key and nothing else, also while a key is awaited. -/
def Obligations.SetKeyWritesOneKey : Prop :=
  ∀ (k : Key) (b : Bool) (s : State), transact (.setKey k b) s = .next (setKey k b s) ∧
    (∀ j : Key, keyPressed j (setKey k b s) = if j = k then b else keyPressed j s) ∧
    (setKey k b s).pc = s.pc ∧ Unchanged (· = .key k) s (setKey k b s)

/-- 60_exceptions.md R237: SOUND is ST > 0. 44_keypad_timers.md R206: AWAITING is WAIT = AwaitingKey(x) for some x, and the `awaiting` of a
STEP's `Ok` result is its value at the end of that step; a STEP that faults has no `Ok` result. -/
def Obligations.ObservationsReadTheirRegisters : Prop :=
  (∀ s : State, sound s = true ↔ 0 < s.st.toNat) ∧
  (∀ s : State, awaiting s = true ↔ ∃ x, s.wait = .awaitingKey x) ∧
  (∀ (r : Byte) (s : State) (b : Bool), stepAwaiting r s = some b ↔ ∃ t, stepWith r s = .next t ∧ awaiting t = b)
end

