-- ==== Sys2Proof/Laws/Decode.lean ====
section
/-! SUPPORT. The decoder's fields: read from the encoder's forms, in plain arithmetic, and under a mask of the opcode table. -/
namespace Sys2Proof

/-- Concatenation is the upper part times its place value plus the lower part (00_scope.md R10). -/
theorem append_toNat {n m : Nat} (x : BitVec n) (y : BitVec m) : (x ++ y).toNat = x.toNat * 2 ^ m + y.toNat := by
  rw [BitVec.toNat_append, ← Nat.shiftLeft_add_eq_or_of_lt y.isLt, Nat.shiftLeft_eq]

theorem nibble_toNat (r : Fin 16) : (nibble r).toNat = r.val := by
  simp [nibble]

theorem formA_toNat (k : BitVec 4) (nnn : Addr) : (formA k nnn).toNat = k.toNat * 4096 + nnn.toNat := by
  rw [formA, append_toNat]; rfl

theorem formXi_toNat (k : BitVec 4) (x : Reg) (nn : Byte) :
    (formXi k x nn).toNat = k.toNat * 4096 + x.val * 256 + nn.toNat := by
  rw [formXi, append_toNat, append_toNat, nibble_toNat]; omega

theorem formXy_toNat (k : BitVec 4) (x y : Reg) (n : BitVec 4) :
    (formXy k x y n).toNat = k.toNat * 4096 + x.val * 256 + y.val * 16 + n.toNat := by
  rw [formXy, append_toNat, append_toNat, append_toNat, nibble_toNat, nibble_toNat]; omega

/-! The fields in plain arithmetic. -/

theorem nibbleAt_val (op : Word) (lo : Nat) : (nibbleAt op lo).val = op.toNat / 2 ^ lo % 16 := by
  simp [nibbleAt, Nat.shiftRight_eq_div_pow]

theorem major_eq (op : Word) : major op = op.toNat / 4096 := by
  have := op.isLt
  rw [major, nibbleAt_val]; omega

theorem fieldX_eq (op : Word) : fieldX op = Machine.opX op := Fin.ext (nibbleAt_val op 8)

theorem fieldY_eq (op : Word) : fieldY op = Machine.opY op := Fin.ext (nibbleAt_val op 4)

theorem fieldN_eq (op : Word) : fieldN op = Machine.opN op := by
  apply Fin.ext; rw [fieldN, nibbleAt_val]; simp [Machine.opN]

theorem fieldNn_toNat (op : Word) : (fieldNn op).toNat = op.toNat % 256 := by
  simp [fieldNn]

theorem fieldNnn_toNat (op : Word) : (fieldNnn op).toNat = op.toNat % 4096 := by
  simp [fieldNnn]

theorem fieldNn_eq (op : Word) : fieldNn op = Machine.opNn op := by
  apply BitVec.eq_of_toNat_eq; rw [fieldNn_toNat]; simp [Machine.opNn]

theorem fieldNnn_eq (op : Word) : fieldNnn op = Machine.opNnn op := by
  apply BitVec.eq_of_toNat_eq; rw [fieldNnn_toNat]; simp [Machine.opNnn]

/-! The fields of the encoder's forms. -/

section
variable (k : BitVec 4) (x y : Reg) (n : BitVec 4) (nn : Byte) (nnn : Addr)

@[simp] theorem major_formA : major (formA k nnn) = k.toNat := by
  rw [major_eq, formA_toNat]; omega

@[simp] theorem fieldNnn_formA : fieldNnn (formA k nnn) = nnn := by
  apply BitVec.eq_of_toNat_eq; rw [fieldNnn_toNat, formA_toNat]; omega

@[simp] theorem major_formXi : major (formXi k x nn) = k.toNat := by
  rw [major_eq, formXi_toNat]; omega

@[simp] theorem fieldX_formXi : fieldX (formXi k x nn) = x := by
  rw [fieldX_eq]; apply Fin.ext; simp only [Machine.opX, formXi_toNat]; omega

@[simp] theorem fieldNn_formXi : fieldNn (formXi k x nn) = nn := by
  apply BitVec.eq_of_toNat_eq; rw [fieldNn_toNat, formXi_toNat]; omega

@[simp] theorem major_formXy : major (formXy k x y n) = k.toNat := by
  rw [major_eq, formXy_toNat]; omega

@[simp] theorem fieldX_formXy : fieldX (formXy k x y n) = x := by
  rw [fieldX_eq]; apply Fin.ext; simp only [Machine.opX, formXy_toNat]; omega

@[simp] theorem fieldY_formXy : fieldY (formXy k x y n) = y := by
  rw [fieldY_eq]; apply Fin.ext; simp only [Machine.opY, formXy_toNat]; omega

@[simp] theorem fieldN_formXy_val : (fieldN (formXy k x y n)).val = n.toNat := by
  rw [fieldN_eq]; simp only [Machine.opN, formXy_toNat]; omega

end

/-! The fields that a row's mask fixes (opcode_table.json). -/

theorem nibbleAt_of_mask {op mask pattern : Word} {lo : Nat} (h : op &&& mask = pattern)
    (hm : mask.extractLsb' lo 4 = 0xF#4) : nibbleAt op lo = nibbleAt pattern lo := by
  apply Fin.ext
  simp only [nibbleAt, ← h, BitVec.extractLsb'_and, hm]
  congr 1
  exact (BitVec.and_allOnes (x := op.extractLsb' lo 4)).symm

theorem major_of_mask {op mask pattern : Word} (h : op &&& mask = pattern) (hm : mask.extractLsb' 12 4 = 0xF#4) :
    major op = major pattern := by
  rw [major, nibbleAt_of_mask h hm, major]

theorem fieldN_of_mask {op mask pattern : Word} (h : op &&& mask = pattern) (hm : mask.extractLsb' 0 4 = 0xF#4) :
    fieldN op = fieldN pattern := nibbleAt_of_mask h hm

theorem fieldNn_of_mask {op mask pattern : Word} (h : op &&& mask = pattern) (hm : mask.extractLsb' 0 8 = 0xFF#8) :
    fieldNn op = fieldNn pattern := by
  simp only [fieldNn, ← h, BitVec.extractLsb'_and, hm]
  exact (BitVec.and_allOnes (x := op.extractLsb' 0 8)).symm

/-- The opcode of the two bytes of an opcode (20_memory.md R63). -/
@[simp] theorem wordOfBytes_bytes (op : Word) : wordOfBytes (highByte op) (lowByte op) = op := by
  apply BitVec.eq_of_toNat_eq
  have := op.isLt
  rw [wordOfBytes, append_toNat]
  simp [highByte, lowByte, Nat.shiftRight_eq_div_pow]
  omega

theorem wordOfBytes_toNat (hi lo : Byte) : (wordOfBytes hi lo).toNat = 256 * hi.toNat + lo.toNat := by
  rw [wordOfBytes, append_toNat]; omega

/-- Decoding never answers `truncated` for a whole opcode. -/
theorem decodeWord_ne_truncated (op : Word) : decodeWord op ≠ .truncated := by
  unfold decodeWord decodeZero decodeXy0 decodeAlu decodeKeypad decodeMisc
  repeat' split
  all_goals simp

/-- An opcode is rejected under its own name. -/
theorem decodeWord_unassigned {op op' : Word} (h : decodeWord op = .unassigned op') : op' = op := by
  unfold decodeWord decodeZero decodeXy0 decodeAlu decodeKeypad decodeMisc at h
  repeat' split at h
  all_goals simp_all

end Sys2Proof
end

