-- ==== Sys2Proof/Laws/Memory.lean ====
section
/-! SUPPORT. What the memory operations do: reads after writes, and that each keeps the canonical form. The read laws hold of any list of
cells, canonical or not. -/
namespace Sys2Proof.Machine

theorem Memory.find_erase (m : Memory) (a a' : Nat) :
    (m.erase a).find a' = if a' = a then none else m.find a' := by
  induction m with
  | nil => simp [Memory.erase, Memory.find]
  | cons c rest ih =>
    obtain ⟨k, b⟩ := c
    simp only [Memory.erase]
    split_ifs with h1 h2 <;> simp_all [Memory.find]

theorem Memory.find_insertCell (m : Memory) (a a' : Nat) (b : Byte) (h : m.find a = none) :
    (m.insertCell a b).find a' = if a' = a then some b else m.find a' := by
  induction m with
  | nil => simp [Memory.insertCell, Memory.find]
  | cons c rest ih =>
    obtain ⟨k, d⟩ := c
    simp only [Memory.find] at h
    split_ifs at h with hk
    simp only [Memory.insertCell]
    by_cases hlt : a < k
    · simp [hlt, Memory.find]
    · simp only [hlt, if_false, Memory.find, ih h]
      grind

/-- Reading `a'` after `MEM[a] <- b`. -/
theorem Memory.cellAt_put (m : Memory) (a a' : Nat) (b : Byte) :
    (m.put a b).cellAt a' = if a' = a then b else m.cellAt a' := by
  unfold Memory.put Memory.cellAt
  by_cases hb : b = Memory.background a
  · rw [if_pos hb, Memory.find_erase]
    split_ifs with h
    · simp [h, hb]
    · rfl
  · rw [if_neg hb, Memory.find_insertCell _ _ _ _ (by simp [Memory.find_erase]), Memory.find_erase]
    split_ifs <;> rfl

/-- An address reads as the address it translates to. -/
theorem memRead_translate (m : Memory) (a : Nat) : memRead m (a % 4096) = memRead m a := by
  simp [memRead, translate]

/-- Two addresses that agree mod 4096 read the same byte. -/
theorem memRead_congr (m : Memory) {a a' : Nat} (h : a % 4096 = a' % 4096) : memRead m a = memRead m a' := by
  simp [memRead, translate, h]

/-- Reading any address after writing one byte at any address. -/
theorem memRead_memWrite (m : Memory) (addr a : Nat) (b : Byte) :
    memRead (memWrite m addr b) a = if a % 4096 = addr % 4096 then b else memRead m a := by
  simp [memRead, memWrite, translate, Memory.cellAt_put]

/-- An address none of the written ones translates to keeps its byte. -/
theorem memRead_memWriteBytes_other (bs : List Byte) (m : Memory) (base a : Nat)
    (h : ∀ k < bs.length, a % 4096 ≠ (base + k) % 4096) : memRead (memWriteBytes m base bs) a = memRead m a := by
  induction bs generalizing m base with
  | nil => rfl
  | cons b bs ih =>
    simp only [memWriteBytes]
    rw [ih, memRead_memWrite, if_neg]
    · simpa using h 0 (by simp)
    · intro k hk
      have := h (k + 1) (by simpa using hk)
      rwa [show base + 1 + k = base + (k + 1) by omega]

/-- The k-th byte written is the byte read at its address. -/
theorem memRead_memWriteBytes (bs : List Byte) (m : Memory) (base k : Nat) (hlen : bs.length ≤ 4096) (hk : k < bs.length) :
    memRead (memWriteBytes m base bs) (base + k) = bs[k] := by
  induction bs generalizing m base k with
  | nil => simp at hk
  | cons b bs ih =>
    simp only [memWriteBytes]
    cases k with
    | zero =>
      rw [memRead_memWriteBytes_other, memRead_memWrite]
      · simp
      · intro j hj
        simp only [List.length_cons] at hlen
        omega
    | succ k =>
      simp only [List.length_cons] at hlen hk
      rw [show base + (k + 1) = base + 1 + k by omega, ih _ _ _ (by omega) (by omega)]
      simp

theorem memReadBytes_length (m : Memory) (base n : Nat) : (memReadBytes m base n).length = n := by
  induction n generalizing base with
  | zero => rfl
  | succ n ih => simp [memReadBytes, ih]

theorem memReadBytes_getElem (m : Memory) (base n k : Nat) (h : k < n) :
    (memReadBytes m base n)[k]'(by rw [memReadBytes_length]; exact h) = memRead m (base + k) := by
  induction n generalizing base k with
  | zero => omega
  | succ n ih =>
    cases k with
    | zero => simp [memReadBytes]
    | succ k =>
      simp only [memReadBytes, List.getElem_cons_succ]
      rw [ih _ _ (by omega)]
      congr 1; omega

/-! The canonical form. -/

theorem Memory.wfFrom_mono {lo lo' : Nat} (h : lo' ≤ lo) {m : Memory} (hm : Memory.wfFrom lo m = true) :
    Memory.wfFrom lo' m = true := by
  cases m with
  | nil => rfl
  | cons c rest =>
    obtain ⟨k, b⟩ := c
    simp only [Memory.wfFrom, Bool.and_eq_true, decide_eq_true_eq] at hm ⊢
    exact ⟨⟨⟨by omega, hm.1.1.2⟩, hm.1.2⟩, hm.2⟩

theorem Memory.wfFrom_erase {lo : Nat} {m : Memory} (a : Nat) (hm : Memory.wfFrom lo m = true) :
    Memory.wfFrom lo (m.erase a) = true := by
  induction m generalizing lo with
  | nil => rfl
  | cons c rest ih =>
    obtain ⟨k, b⟩ := c
    simp only [Memory.wfFrom, Bool.and_eq_true, decide_eq_true_eq] at hm
    simp only [Memory.erase]
    split_ifs
    · exact Memory.wfFrom_mono (by omega) (ih hm.2)
    · simp only [Memory.wfFrom, Bool.and_eq_true, decide_eq_true_eq]
      exact ⟨hm.1, ih hm.2⟩

theorem Memory.wfFrom_insertCell {lo : Nat} {m : Memory} {a : Nat} {b : Byte} (hlo : lo ≤ a) (ha : a < 4096)
    (hb : b ≠ Memory.background a) (hfree : m.find a = none) (hm : Memory.wfFrom lo m = true) :
    Memory.wfFrom lo (m.insertCell a b) = true := by
  induction m generalizing lo with
  | nil => simp [Memory.insertCell, Memory.wfFrom, hlo, ha, hb]
  | cons c rest ih =>
    obtain ⟨k, d⟩ := c
    simp only [Memory.find] at hfree
    split_ifs at hfree with hk
    simp only [Memory.wfFrom, Bool.and_eq_true, decide_eq_true_eq] at hm
    simp only [Memory.insertCell]
    split_ifs with hlt
    · simp only [Memory.wfFrom, Bool.and_eq_true, decide_eq_true_eq, bne_iff_ne]
      exact ⟨⟨⟨hlo, ha⟩, hb⟩, ⟨⟨⟨by omega, hm.1.1.2⟩, by simpa using hm.1.2⟩, hm.2⟩⟩
    · simp only [Memory.wfFrom, Bool.and_eq_true, decide_eq_true_eq]
      exact ⟨hm.1, ih (by omega) hfree hm.2⟩

/-- Every memory write keeps the canonical form. -/
theorem memWrite_wf {m : Memory} (addr : Nat) (b : Byte) (hm : m.wf = true) : (memWrite m addr b).wf = true := by
  unfold memWrite Memory.put
  have he : (m.erase (translate addr)).wf = true := Memory.wfFrom_erase _ hm
  split_ifs with hb
  · exact he
  · exact Memory.wfFrom_insertCell (Nat.zero_le _) (Nat.mod_lt _ (by decide)) hb (by simp [Memory.find_erase]) he

theorem memWriteBytes_wf (bs : List Byte) {m : Memory} (base : Nat) (hm : m.wf = true) :
    (memWriteBytes m base bs).wf = true := by
  induction bs generalizing m base with
  | nil => exact hm
  | cons b bs ih => exact ih _ (memWrite_wf base b hm)

/-- The reset memory is canonical. -/
theorem nil_wf : Memory.wf [] = true := rfl

end Sys2Proof.Machine
end

