-- ==== Sys2Proof/Laws/State.lean ====
section
/-! SUPPORT. One lemma for each field of each update of the state, so that no proof unfolds a record update. -/
namespace Sys2Proof.Machine

variable (s : State)

/-! `State.setReg`. -/

@[simp] theorem State.setReg_v (r : Reg) (b : Byte) : (s.setReg r b).v = s.v.set r.val b := rfl
@[simp] theorem State.setReg_i (r : Reg) (b : Byte) : (s.setReg r b).i = s.i := rfl
@[simp] theorem State.setReg_pc (r : Reg) (b : Byte) : (s.setReg r b).pc = s.pc := rfl
@[simp] theorem State.setReg_sp (r : Reg) (b : Byte) : (s.setReg r b).sp = s.sp := rfl
@[simp] theorem State.setReg_stack (r : Reg) (b : Byte) : (s.setReg r b).stack = s.stack := rfl
@[simp] theorem State.setReg_dt (r : Reg) (b : Byte) : (s.setReg r b).dt = s.dt := rfl
@[simp] theorem State.setReg_st (r : Reg) (b : Byte) : (s.setReg r b).st = s.st := rfl
@[simp] theorem State.setReg_fb (r : Reg) (b : Byte) : (s.setReg r b).fb = s.fb := rfl
@[simp] theorem State.setReg_wait (r : Reg) (b : Byte) : (s.setReg r b).wait = s.wait := rfl
@[simp] theorem State.setReg_key (r : Reg) (b : Byte) : (s.setReg r b).key = s.key := rfl
@[simp] theorem State.setReg_keyPrev (r : Reg) (b : Byte) : (s.setReg r b).keyPrev = s.keyPrev := rfl
@[simp] theorem State.setReg_profile (r : Reg) (b : Byte) : (s.setReg r b).profile = s.profile := rfl
@[simp] theorem State.setReg_mem (r : Reg) (b : Byte) : (s.setReg r b).mem = s.mem := rfl
@[simp] theorem State.setReg_draws (r : Reg) (b : Byte) : (s.setReg r b).draws = s.draws := rfl

/-! `State.setI`. -/

@[simp] theorem State.setI_v (w : Word) : (s.setI w).v = s.v := rfl
@[simp] theorem State.setI_i (w : Word) : (s.setI w).i = w &&& 0x0FFF#16 := rfl
@[simp] theorem State.setI_pc (w : Word) : (s.setI w).pc = s.pc := rfl
@[simp] theorem State.setI_sp (w : Word) : (s.setI w).sp = s.sp := rfl
@[simp] theorem State.setI_stack (w : Word) : (s.setI w).stack = s.stack := rfl
@[simp] theorem State.setI_dt (w : Word) : (s.setI w).dt = s.dt := rfl
@[simp] theorem State.setI_st (w : Word) : (s.setI w).st = s.st := rfl
@[simp] theorem State.setI_fb (w : Word) : (s.setI w).fb = s.fb := rfl
@[simp] theorem State.setI_wait (w : Word) : (s.setI w).wait = s.wait := rfl
@[simp] theorem State.setI_key (w : Word) : (s.setI w).key = s.key := rfl
@[simp] theorem State.setI_keyPrev (w : Word) : (s.setI w).keyPrev = s.keyPrev := rfl
@[simp] theorem State.setI_profile (w : Word) : (s.setI w).profile = s.profile := rfl
@[simp] theorem State.setI_mem (w : Word) : (s.setI w).mem = s.mem := rfl
@[simp] theorem State.setI_draws (w : Word) : (s.setI w).draws = s.draws := rfl

/-! `State.setPc`. -/

@[simp] theorem State.setPc_v (w : Word) : (s.setPc w).v = s.v := rfl
@[simp] theorem State.setPc_i (w : Word) : (s.setPc w).i = s.i := rfl
@[simp] theorem State.setPc_pc (w : Word) : (s.setPc w).pc = w := rfl
@[simp] theorem State.setPc_sp (w : Word) : (s.setPc w).sp = s.sp := rfl
@[simp] theorem State.setPc_stack (w : Word) : (s.setPc w).stack = s.stack := rfl
@[simp] theorem State.setPc_dt (w : Word) : (s.setPc w).dt = s.dt := rfl
@[simp] theorem State.setPc_st (w : Word) : (s.setPc w).st = s.st := rfl
@[simp] theorem State.setPc_fb (w : Word) : (s.setPc w).fb = s.fb := rfl
@[simp] theorem State.setPc_wait (w : Word) : (s.setPc w).wait = s.wait := rfl
@[simp] theorem State.setPc_key (w : Word) : (s.setPc w).key = s.key := rfl
@[simp] theorem State.setPc_keyPrev (w : Word) : (s.setPc w).keyPrev = s.keyPrev := rfl
@[simp] theorem State.setPc_profile (w : Word) : (s.setPc w).profile = s.profile := rfl
@[simp] theorem State.setPc_mem (w : Word) : (s.setPc w).mem = s.mem := rfl
@[simp] theorem State.setPc_draws (w : Word) : (s.setPc w).draws = s.draws := rfl

/-! `State.advance`. -/

@[simp] theorem State.advance_v : s.advance.v = s.v := rfl
@[simp] theorem State.advance_i : s.advance.i = s.i := rfl
@[simp] theorem State.advance_pc : s.advance.pc = s.pc + 2#16 := rfl
@[simp] theorem State.advance_sp : s.advance.sp = s.sp := rfl
@[simp] theorem State.advance_stack : s.advance.stack = s.stack := rfl
@[simp] theorem State.advance_dt : s.advance.dt = s.dt := rfl
@[simp] theorem State.advance_st : s.advance.st = s.st := rfl
@[simp] theorem State.advance_fb : s.advance.fb = s.fb := rfl
@[simp] theorem State.advance_wait : s.advance.wait = s.wait := rfl
@[simp] theorem State.advance_key : s.advance.key = s.key := rfl
@[simp] theorem State.advance_keyPrev : s.advance.keyPrev = s.keyPrev := rfl
@[simp] theorem State.advance_profile : s.advance.profile = s.profile := rfl
@[simp] theorem State.advance_mem : s.advance.mem = s.mem := rfl
@[simp] theorem State.advance_draws : s.advance.draws = s.draws := rfl

/-! `State.skipIf`. -/

@[simp] theorem State.skipIf_v (c : Bool) : (s.skipIf c).v = s.v := rfl
@[simp] theorem State.skipIf_i (c : Bool) : (s.skipIf c).i = s.i := rfl
@[simp] theorem State.skipIf_pc (c : Bool) : (s.skipIf c).pc = (if c then s.pc + 4#16 else s.pc + 2#16) := rfl
@[simp] theorem State.skipIf_sp (c : Bool) : (s.skipIf c).sp = s.sp := rfl
@[simp] theorem State.skipIf_stack (c : Bool) : (s.skipIf c).stack = s.stack := rfl
@[simp] theorem State.skipIf_dt (c : Bool) : (s.skipIf c).dt = s.dt := rfl
@[simp] theorem State.skipIf_st (c : Bool) : (s.skipIf c).st = s.st := rfl
@[simp] theorem State.skipIf_fb (c : Bool) : (s.skipIf c).fb = s.fb := rfl
@[simp] theorem State.skipIf_wait (c : Bool) : (s.skipIf c).wait = s.wait := rfl
@[simp] theorem State.skipIf_key (c : Bool) : (s.skipIf c).key = s.key := rfl
@[simp] theorem State.skipIf_keyPrev (c : Bool) : (s.skipIf c).keyPrev = s.keyPrev := rfl
@[simp] theorem State.skipIf_profile (c : Bool) : (s.skipIf c).profile = s.profile := rfl
@[simp] theorem State.skipIf_mem (c : Bool) : (s.skipIf c).mem = s.mem := rfl
@[simp] theorem State.skipIf_draws (c : Bool) : (s.skipIf c).draws = s.draws := rfl

/-! `State.setDt`. -/

@[simp] theorem State.setDt_v (b : Byte) : (s.setDt b).v = s.v := rfl
@[simp] theorem State.setDt_i (b : Byte) : (s.setDt b).i = s.i := rfl
@[simp] theorem State.setDt_pc (b : Byte) : (s.setDt b).pc = s.pc := rfl
@[simp] theorem State.setDt_sp (b : Byte) : (s.setDt b).sp = s.sp := rfl
@[simp] theorem State.setDt_stack (b : Byte) : (s.setDt b).stack = s.stack := rfl
@[simp] theorem State.setDt_dt (b : Byte) : (s.setDt b).dt = b := rfl
@[simp] theorem State.setDt_st (b : Byte) : (s.setDt b).st = s.st := rfl
@[simp] theorem State.setDt_fb (b : Byte) : (s.setDt b).fb = s.fb := rfl
@[simp] theorem State.setDt_wait (b : Byte) : (s.setDt b).wait = s.wait := rfl
@[simp] theorem State.setDt_key (b : Byte) : (s.setDt b).key = s.key := rfl
@[simp] theorem State.setDt_keyPrev (b : Byte) : (s.setDt b).keyPrev = s.keyPrev := rfl
@[simp] theorem State.setDt_profile (b : Byte) : (s.setDt b).profile = s.profile := rfl
@[simp] theorem State.setDt_mem (b : Byte) : (s.setDt b).mem = s.mem := rfl
@[simp] theorem State.setDt_draws (b : Byte) : (s.setDt b).draws = s.draws := rfl

/-! `State.setSt`. -/

@[simp] theorem State.setSt_v (b : Byte) : (s.setSt b).v = s.v := rfl
@[simp] theorem State.setSt_i (b : Byte) : (s.setSt b).i = s.i := rfl
@[simp] theorem State.setSt_pc (b : Byte) : (s.setSt b).pc = s.pc := rfl
@[simp] theorem State.setSt_sp (b : Byte) : (s.setSt b).sp = s.sp := rfl
@[simp] theorem State.setSt_stack (b : Byte) : (s.setSt b).stack = s.stack := rfl
@[simp] theorem State.setSt_dt (b : Byte) : (s.setSt b).dt = s.dt := rfl
@[simp] theorem State.setSt_st (b : Byte) : (s.setSt b).st = b := rfl
@[simp] theorem State.setSt_fb (b : Byte) : (s.setSt b).fb = s.fb := rfl
@[simp] theorem State.setSt_wait (b : Byte) : (s.setSt b).wait = s.wait := rfl
@[simp] theorem State.setSt_key (b : Byte) : (s.setSt b).key = s.key := rfl
@[simp] theorem State.setSt_keyPrev (b : Byte) : (s.setSt b).keyPrev = s.keyPrev := rfl
@[simp] theorem State.setSt_profile (b : Byte) : (s.setSt b).profile = s.profile := rfl
@[simp] theorem State.setSt_mem (b : Byte) : (s.setSt b).mem = s.mem := rfl
@[simp] theorem State.setSt_draws (b : Byte) : (s.setSt b).draws = s.draws := rfl

/-! `State.storeBytes`. -/

@[simp] theorem State.storeBytes_v (a : Nat) (bs : List Byte) : (s.storeBytes a bs).v = s.v := rfl
@[simp] theorem State.storeBytes_i (a : Nat) (bs : List Byte) : (s.storeBytes a bs).i = s.i := rfl
@[simp] theorem State.storeBytes_pc (a : Nat) (bs : List Byte) : (s.storeBytes a bs).pc = s.pc := rfl
@[simp] theorem State.storeBytes_sp (a : Nat) (bs : List Byte) : (s.storeBytes a bs).sp = s.sp := rfl
@[simp] theorem State.storeBytes_stack (a : Nat) (bs : List Byte) : (s.storeBytes a bs).stack = s.stack := rfl
@[simp] theorem State.storeBytes_dt (a : Nat) (bs : List Byte) : (s.storeBytes a bs).dt = s.dt := rfl
@[simp] theorem State.storeBytes_st (a : Nat) (bs : List Byte) : (s.storeBytes a bs).st = s.st := rfl
@[simp] theorem State.storeBytes_fb (a : Nat) (bs : List Byte) : (s.storeBytes a bs).fb = s.fb := rfl
@[simp] theorem State.storeBytes_wait (a : Nat) (bs : List Byte) : (s.storeBytes a bs).wait = s.wait := rfl
@[simp] theorem State.storeBytes_key (a : Nat) (bs : List Byte) : (s.storeBytes a bs).key = s.key := rfl
@[simp] theorem State.storeBytes_keyPrev (a : Nat) (bs : List Byte) : (s.storeBytes a bs).keyPrev = s.keyPrev := rfl
@[simp] theorem State.storeBytes_profile (a : Nat) (bs : List Byte) : (s.storeBytes a bs).profile = s.profile := rfl
@[simp] theorem State.storeBytes_mem (a : Nat) (bs : List Byte) : (s.storeBytes a bs).mem = memWriteBytes s.mem a bs := rfl
@[simp] theorem State.storeBytes_draws (a : Nat) (bs : List Byte) : (s.storeBytes a bs).draws = s.draws := rfl

/-! `State.snapshot`. -/

@[simp] theorem State.snapshot_v : s.snapshot.v = s.v := rfl
@[simp] theorem State.snapshot_i : s.snapshot.i = s.i := rfl
@[simp] theorem State.snapshot_pc : s.snapshot.pc = s.pc := rfl
@[simp] theorem State.snapshot_sp : s.snapshot.sp = s.sp := rfl
@[simp] theorem State.snapshot_stack : s.snapshot.stack = s.stack := rfl
@[simp] theorem State.snapshot_dt : s.snapshot.dt = s.dt := rfl
@[simp] theorem State.snapshot_st : s.snapshot.st = s.st := rfl
@[simp] theorem State.snapshot_fb : s.snapshot.fb = s.fb := rfl
@[simp] theorem State.snapshot_wait : s.snapshot.wait = s.wait := rfl
@[simp] theorem State.snapshot_key : s.snapshot.key = s.key := rfl
@[simp] theorem State.snapshot_keyPrev : s.snapshot.keyPrev = s.key := rfl
@[simp] theorem State.snapshot_profile : s.snapshot.profile = s.profile := rfl
@[simp] theorem State.snapshot_mem : s.snapshot.mem = s.mem := rfl
@[simp] theorem State.snapshot_draws : s.snapshot.draws = s.draws := rfl

/-! `State.setFlag`. -/

@[simp] theorem State.setFlag_v (c : Bool) : (s.setFlag c).v = s.v.set Reg.flag.val (flagByte c) := rfl
@[simp] theorem State.setFlag_i (c : Bool) : (s.setFlag c).i = s.i := rfl
@[simp] theorem State.setFlag_pc (c : Bool) : (s.setFlag c).pc = s.pc := rfl
@[simp] theorem State.setFlag_sp (c : Bool) : (s.setFlag c).sp = s.sp := rfl
@[simp] theorem State.setFlag_stack (c : Bool) : (s.setFlag c).stack = s.stack := rfl
@[simp] theorem State.setFlag_dt (c : Bool) : (s.setFlag c).dt = s.dt := rfl
@[simp] theorem State.setFlag_st (c : Bool) : (s.setFlag c).st = s.st := rfl
@[simp] theorem State.setFlag_fb (c : Bool) : (s.setFlag c).fb = s.fb := rfl
@[simp] theorem State.setFlag_wait (c : Bool) : (s.setFlag c).wait = s.wait := rfl
@[simp] theorem State.setFlag_key (c : Bool) : (s.setFlag c).key = s.key := rfl
@[simp] theorem State.setFlag_keyPrev (c : Bool) : (s.setFlag c).keyPrev = s.keyPrev := rfl
@[simp] theorem State.setFlag_profile (c : Bool) : (s.setFlag c).profile = s.profile := rfl
@[simp] theorem State.setFlag_mem (c : Bool) : (s.setFlag c).mem = s.mem := rfl
@[simp] theorem State.setFlag_draws (c : Bool) : (s.setFlag c).draws = s.draws := rfl

/-! `State.setRegFlag`. -/

@[simp] theorem State.setRegFlag_v (r : Reg) (b : Byte) (c : Bool) : (s.setRegFlag r b c).v = (s.v.set r.val b).set Reg.flag.val (flagByte c) := rfl
@[simp] theorem State.setRegFlag_i (r : Reg) (b : Byte) (c : Bool) : (s.setRegFlag r b c).i = s.i := rfl
@[simp] theorem State.setRegFlag_pc (r : Reg) (b : Byte) (c : Bool) : (s.setRegFlag r b c).pc = s.pc := rfl
@[simp] theorem State.setRegFlag_sp (r : Reg) (b : Byte) (c : Bool) : (s.setRegFlag r b c).sp = s.sp := rfl
@[simp] theorem State.setRegFlag_stack (r : Reg) (b : Byte) (c : Bool) : (s.setRegFlag r b c).stack = s.stack := rfl
@[simp] theorem State.setRegFlag_dt (r : Reg) (b : Byte) (c : Bool) : (s.setRegFlag r b c).dt = s.dt := rfl
@[simp] theorem State.setRegFlag_st (r : Reg) (b : Byte) (c : Bool) : (s.setRegFlag r b c).st = s.st := rfl
@[simp] theorem State.setRegFlag_fb (r : Reg) (b : Byte) (c : Bool) : (s.setRegFlag r b c).fb = s.fb := rfl
@[simp] theorem State.setRegFlag_wait (r : Reg) (b : Byte) (c : Bool) : (s.setRegFlag r b c).wait = s.wait := rfl
@[simp] theorem State.setRegFlag_key (r : Reg) (b : Byte) (c : Bool) : (s.setRegFlag r b c).key = s.key := rfl
@[simp] theorem State.setRegFlag_keyPrev (r : Reg) (b : Byte) (c : Bool) : (s.setRegFlag r b c).keyPrev = s.keyPrev := rfl
@[simp] theorem State.setRegFlag_profile (r : Reg) (b : Byte) (c : Bool) : (s.setRegFlag r b c).profile = s.profile := rfl
@[simp] theorem State.setRegFlag_mem (r : Reg) (b : Byte) (c : Bool) : (s.setRegFlag r b c).mem = s.mem := rfl
@[simp] theorem State.setRegFlag_draws (r : Reg) (b : Byte) (c : Bool) : (s.setRegFlag r b c).draws = s.draws := rfl

/-! `State.afterBlock`: I by the profile, nothing else (42_index_memory.md R175). -/

@[simp] theorem State.afterBlock_v (x : Reg) : (s.afterBlock x).v = s.v := by
  unfold State.afterBlock; cases s.profile <;> rfl
theorem State.afterBlock_i (x : Reg) : (s.afterBlock x).i =
    if s.profile = .original then (s.i + BitVec.ofNat 16 (x.val + 1)) &&& 0x0FFF#16 else s.i := by
  unfold State.afterBlock; cases s.profile <;> rfl
@[simp] theorem State.afterBlock_pc (x : Reg) : (s.afterBlock x).pc = s.pc := by
  unfold State.afterBlock; cases s.profile <;> rfl
@[simp] theorem State.afterBlock_sp (x : Reg) : (s.afterBlock x).sp = s.sp := by
  unfold State.afterBlock; cases s.profile <;> rfl
@[simp] theorem State.afterBlock_stack (x : Reg) : (s.afterBlock x).stack = s.stack := by
  unfold State.afterBlock; cases s.profile <;> rfl
@[simp] theorem State.afterBlock_dt (x : Reg) : (s.afterBlock x).dt = s.dt := by
  unfold State.afterBlock; cases s.profile <;> rfl
@[simp] theorem State.afterBlock_st (x : Reg) : (s.afterBlock x).st = s.st := by
  unfold State.afterBlock; cases s.profile <;> rfl
@[simp] theorem State.afterBlock_fb (x : Reg) : (s.afterBlock x).fb = s.fb := by
  unfold State.afterBlock; cases s.profile <;> rfl
@[simp] theorem State.afterBlock_wait (x : Reg) : (s.afterBlock x).wait = s.wait := by
  unfold State.afterBlock; cases s.profile <;> rfl
@[simp] theorem State.afterBlock_key (x : Reg) : (s.afterBlock x).key = s.key := by
  unfold State.afterBlock; cases s.profile <;> rfl
@[simp] theorem State.afterBlock_keyPrev (x : Reg) : (s.afterBlock x).keyPrev = s.keyPrev := by
  unfold State.afterBlock; cases s.profile <;> rfl
@[simp] theorem State.afterBlock_profile (x : Reg) : (s.afterBlock x).profile = s.profile := by
  unfold State.afterBlock; split <;> rfl
@[simp] theorem State.afterBlock_mem (x : Reg) : (s.afterBlock x).mem = s.mem := by
  unfold State.afterBlock; cases s.profile <;> rfl
@[simp] theorem State.afterBlock_draws (x : Reg) : (s.afterBlock x).draws = s.draws := by
  unfold State.afterBlock; cases s.profile <;> rfl

/-! Registers. -/

/-- Reading a register after writing one. -/
theorem State.reg_setReg (r r' : Reg) (b : Byte) : (s.setReg r b).reg r' = if r' = r then b else s.reg r' := by
  simp only [State.reg, State.setReg_v, Vector.getElem_set]
  by_cases h : r' = r
  · simp [h]
  · rw [if_neg (fun h' => h (Fin.ext h'.symm)), if_neg h]

@[simp] theorem State.reg_setReg_self (r : Reg) (b : Byte) : (s.setReg r b).reg r = b := by simp [State.reg_setReg]

/-- With the flag written last, VF holds the flag whatever the destination (41_alu.md R155). -/
theorem State.reg_setRegFlag (x r : Reg) (b : Byte) (c : Bool) :
    (s.setRegFlag x b c).reg r = if r = Reg.flag then flagByte c else if r = x then b else s.reg r := by
  simp only [State.setRegFlag, State.setFlag, State.reg_setReg]

theorem State.reg_setFlag (r : Reg) (c : Bool) :
    (s.setFlag c).reg r = if r = Reg.flag then flagByte c else s.reg r := by
  simp only [State.setFlag, State.reg_setReg]

/-- A register reads the same in states with the same register file. -/
theorem State.reg_congr {s t : State} (h : t.v = s.v) (r : Reg) : t.reg r = s.reg r := by simp [State.reg, h]

/-- Every written value of I is below 4096 (10_state.md R23). -/
theorem masked_lt (w : Word) : (w &&& 0x0FFF#16).toNat < 4096 := by
  have : (w &&& 0x0FFF#16).toNat ≤ 4095 := by
    rw [BitVec.toNat_and]; exact Nat.and_le_right
  omega

/-- The I mask is reduction mod 4096 (10_state.md R23). -/
theorem masked_toNat (w : Word) : (w &&& 0x0FFF#16).toNat = w.toNat % 4096 := by
  rw [BitVec.toNat_and]; exact Nat.and_two_pow_sub_one_eq_mod w.toNat 12

/-! What each shared operation can answer. -/

/-- `push` answers a state exactly when fewer than 16 entries are live (10_state.md R31). -/
theorem State.push_eq_some {s t : State} {a : Word} (h : s.push a = some t) :
    ∃ hlt : s.sp.val < 16, t = { s with stack := s.stack.set s.sp.val a, sp := ⟨s.sp.val + 1, by omega⟩ } := by
  unfold State.push at h
  split_ifs at h with hlt
  exact ⟨hlt, (Option.some.inj h).symm⟩

theorem State.push_eq_none (a : Word) : s.push a = none ↔ s.sp.val = 16 := by
  unfold State.push
  have := s.sp.isLt
  split_ifs with h <;> simp <;> omega

/-- `pop` answers the newest entry exactly when one is live (10_state.md R32). -/
theorem State.pop_eq_some {s t : State} {a : Word} (h : s.pop = some (a, t)) :
    ∃ hlt : 0 < s.sp.val, a = s.stack[s.sp.val - 1]'(by omega) ∧ t = { s with sp := ⟨s.sp.val - 1, by omega⟩ } := by
  unfold State.pop at h
  split_ifs at h with hlt
  have := Option.some.inj h
  simp only [Prod.mk.injEq] at this
  exact ⟨hlt, this.1.symm, this.2.symm⟩

theorem State.pop_eq_none : s.pop = none ↔ s.sp.val = 0 := by
  unfold State.pop
  split_ifs with h <;> simp <;> omega

/-- A block load writes the k-th register from `r` up with the k-th byte, and no other register. -/
theorem loadRegs_getElem (bs : List Byte) (v : Vector Byte 16) (r j : Nat) (hj : j < 16) :
    (loadRegs v r bs)[j] = if h : r ≤ j ∧ j < r + bs.length then bs[j - r]'(by omega) else v[j] := by
  induction bs generalizing v r with
  | nil => simp [loadRegs]
  | cons b bs ih =>
    simp only [loadRegs, ih, List.length_cons, Vector.getElem_setIfInBounds]
    by_cases h1 : r = j
    · subst h1; simp
    · by_cases h2 : r + 1 ≤ j ∧ j < r + 1 + bs.length
      · rw [dif_pos h2, dif_pos (by omega), List.getElem_cons]
        split_ifs with h3
        · omega
        · congr 1
      · rw [dif_neg h2, dif_neg (by omega), if_neg h1]

/-- The block of a store is the registers V0 to Vx in order (42_index_memory.md R175). -/
theorem State.regBlock_length (x : Reg) : (s.regBlock x).length = x.val + 1 := by
  have := x.isLt
  simp only [State.regBlock, List.length_take, Vector.length_toList]; omega

theorem State.regBlock_getElem (x : Reg) (k : Nat) (h : k < x.val + 1) :
    (s.regBlock x)[k]'(by rw [State.regBlock_length]; exact h) = s.reg ⟨k, by omega⟩ := by
  simp [State.regBlock, State.reg]

theorem mem_allKeys : ∀ k : Key, k ∈ allKeys := by decide

/-- The least rising key: it rises, and no lower key does (44_keypad_timers.md R205). -/
theorem State.firstRising_eq_some {s : State} {k : Key} (h : s.firstRising = some k) :
    s.rising k = true ∧ ∀ j < k, s.rising j = false := by
  unfold State.firstRising at h
  obtain ⟨hk, as, bs, hsplit, hlow⟩ := List.find?_eq_some_iff_append.mp h
  refine ⟨hk, fun j hj => ?_⟩
  have hsorted : List.Pairwise (· < ·) allKeys := by decide
  have hmem : j ∈ allKeys := mem_allKeys j
  rw [hsplit] at hsorted hmem
  rcases List.mem_append.mp hmem with hm | hm
  · simpa using hlow j hm
  · rcases List.mem_cons.mp hm with rfl | hm
    · exact absurd hj (lt_irrefl _)
    · have := (List.pairwise_cons.mp (List.pairwise_append.mp hsorted).2.1).1 j hm
      exact absurd hj (not_lt.mpr this.le)

theorem State.firstRising_eq_none {s : State} : s.firstRising = none ↔ ∀ k, s.rising k = false := by
  unfold State.firstRising
  rw [List.find?_eq_none]
  constructor
  · intro h k; simpa using h k (mem_allKeys k)
  · intro h k _; simp [h k]

end Sys2Proof.Machine
end

