-- ==== Sys2Proof/Laws/Display.lean ====
section
/-! SUPPORT. The sprite compositor: which places a sprite covers, each once, and what inverting them leaves (43_display.md R192 to R194). -/
namespace Sys2Proof.Machine

/-- Reading a pixel after writing one. -/
theorem Screen.pixel_setPixel (fb : Screen) (p q : Place) (lit : Bool) :
    (fb.setPixel p.1 p.2 lit).pixel q.1 q.2 = if q = p then lit else fb.pixel q.1 q.2 := by
  obtain ⟨y, x⟩ := p
  obtain ⟨y', x'⟩ := q
  simp only [Screen.pixel, Screen.setPixel, Vector.getElem_set, Prod.mk.injEq, Fin.ext_iff]
  by_cases hy : y.val = y'.val
  · by_cases hx : x.val = x'.val
    · simp [hy, hx]
    · simp [hy, hx, Ne.symm hx]
  · simp [hy, Ne.symm hy]

@[simp] theorem Screen.pixel_clear (y : Fin 32) (x : Fin 64) : Screen.clear.pixel y x = false := by
  simp [Screen.pixel, Screen.clear]

theorem plot_foldl (ps : List Place) (hnd : ps.Nodup) (fb : Screen) (hit : Bool) (q : Place) :
    (ps.foldl plot (fb, hit)).1.pixel q.1 q.2 = (fb.pixel q.1 q.2 ^^ decide (q ∈ ps)) ∧
    (ps.foldl plot (fb, hit)).2 = (hit || decide (∃ p ∈ ps, fb.pixel p.1 p.2 = true)) := by
  induction ps generalizing fb hit with
  | nil => simp
  | cons p ps ih =>
    rw [List.nodup_cons] at hnd
    obtain ⟨h1, h2⟩ := ih hnd.2 (fb.setPixel p.1 p.2 (!fb.pixel p.1 p.2)) (hit || fb.pixel p.1 p.2)
    rw [List.foldl_cons]
    refine ⟨?_, ?_⟩
    · show (ps.foldl plot (fb.setPixel p.1 p.2 (!fb.pixel p.1 p.2), (hit || fb.pixel p.1 p.2))).1.pixel q.1 q.2 = _
      rw [h1, Screen.pixel_setPixel]
      by_cases hq : q = p
      · subst hq; simp [hnd.1]
      · simp [hq]
    · show (ps.foldl plot (fb.setPixel p.1 p.2 (!fb.pixel p.1 p.2), (hit || fb.pixel p.1 p.2))).2 = _
      rw [h2]
      have : (∃ a ∈ ps, (fb.setPixel p.1 p.2 (!fb.pixel p.1 p.2)).pixel a.1 a.2 = true) ↔
          ∃ a ∈ ps, fb.pixel a.1 a.2 = true := by
        refine exists_congr fun a => and_congr_right fun ha => ?_
        rw [Screen.pixel_setPixel, if_neg (fun h : a = p => hnd.1 (h ▸ ha))]
      simp only [this, List.mem_cons, exists_eq_or_imp]
      cases hit <;> cases h : fb.pixel p.1 p.2 <;> simp

/-- The compositor inverts exactly the places of the list, when none stands twice. -/
theorem compose_pixel (fb : Screen) (ps : List Place) (hnd : ps.Nodup) (q : Place) :
    (compose fb ps).1.pixel q.1 q.2 = (fb.pixel q.1 q.2 ^^ decide (q ∈ ps)) := (plot_foldl ps hnd fb false q).1

/-- The detector reports a hit exactly when a place of the list was lit, when none stands twice. -/
theorem compose_hit (fb : Screen) (ps : List Place) (hnd : ps.Nodup) :
    (compose fb ps).2 = decide (∃ p ∈ ps, fb.pixel p.1 p.2 = true) := by
  simpa [compose] using (plot_foldl ps hnd fb false (0, 0)).2

theorem mem_rowPlaces {b : Byte} {row col : Nat} {q : Place} :
    q ∈ rowPlaces b row col ↔ ∃ c < 8, b.getLsbD (7 - c) = true ∧ q = place row (col + c) := by
  simp only [rowPlaces, List.mem_map, List.mem_filter, List.mem_range]
  constructor
  · rintro ⟨c, ⟨hc, hb⟩, rfl⟩; exact ⟨c, hc, hb, rfl⟩
  · rintro ⟨c, hc, hb, rfl⟩; exact ⟨c, ⟨hc, hb⟩, rfl⟩

theorem mem_spritePlaces {bs : List Byte} {row col : Nat} {q : Place} :
    q ∈ spritePlaces row col bs ↔
      ∃ r, ∃ hr : r < bs.length, ∃ c < 8, bs[r].getLsbD (7 - c) = true ∧ q = place (row + r) (col + c) := by
  induction bs generalizing row with
  | nil => simp [spritePlaces]
  | cons b bs ih =>
    rw [spritePlaces, List.mem_append, mem_rowPlaces, ih]
    constructor
    · rintro (⟨c, hc, hb, rfl⟩ | ⟨r, hr, c, hc, hb, rfl⟩)
      · exact ⟨0, by simp, c, hc, by simpa using hb, rfl⟩
      · exact ⟨r + 1, by simpa using hr, c, hc, by simpa using hb, by rw [show row + 1 + r = row + (r + 1) by omega]⟩
    · rintro ⟨r, hr, c, hc, hb, rfl⟩
      cases r with
      | zero => exact Or.inl ⟨c, hc, by simpa using hb, rfl⟩
      | succ r =>
        exact Or.inr ⟨r, by simpa using hr, c, hc, by simpa using hb, by rw [show row + 1 + r = row + (r + 1) by omega]⟩

theorem place_eq {row col row' col' : Nat} :
    place row col = place row' col' ↔ row % 32 = row' % 32 ∧ col % 64 = col' % 64 := by
  simp [place, Fin.ext_iff]

/-- No two sprite bits of one draw map to the same pixel (43_display.md R193). -/
theorem spritePlaces_nodup (bs : List Byte) (row col : Nat) (h : bs.length ≤ 32) : (spritePlaces row col bs).Nodup := by
  induction bs generalizing row with
  | nil => simp [spritePlaces]
  | cons b bs ih =>
    simp only [List.length_cons] at h
    rw [spritePlaces, List.nodup_append']
    refine ⟨?_, ih _ (by omega), ?_⟩
    · refine (List.nodup_map_iff_inj_on (List.nodup_range.filter _)).mpr ?_
      intro c hc c' hc' he
      simp only [List.mem_filter, List.mem_range] at hc hc'
      have := (place_eq.mp he).2
      omega
    · intro q hq hq'
      obtain ⟨c, hc, -, rfl⟩ := mem_rowPlaces.mp hq
      obtain ⟨r, hr, c', hc', -, he⟩ := mem_spritePlaces.mp hq'
      have := (place_eq.mp he).1
      omega

theorem State.drawPlaces_nodup (s : State) (x y : Reg) (n : Fin 16) : (s.drawPlaces x y n).Nodup :=
  spritePlaces_nodup _ _ _ (by rw [memReadBytes_length]; omega)

/-- The places a draw inverts are the pixels the sprite covers (43_display.md R192). -/
theorem State.mem_drawPlaces (s : State) (x y : Reg) (n : Fin 16) (q : Place) :
    q ∈ s.drawPlaces x y n ↔ spriteCovers s x y n q.1 q.2 := by
  unfold State.drawPlaces spriteCovers
  rw [mem_spritePlaces]
  constructor
  · rintro ⟨r, hr, c, hc, hb, rfl⟩
    rw [memReadBytes_length] at hr
    rw [memReadBytes_getElem _ _ _ _ hr] at hb
    exact ⟨r, hr, c, hc, by simpa [State.indexed] using hb, by simp [place], by simp [place]⟩
  · rintro ⟨r, hr, c, hc, hb, hy, hx⟩
    refine ⟨r, by rw [memReadBytes_length]; exact hr, c, hc, ?_, ?_⟩
    · rw [memReadBytes_getElem _ _ _ _ hr]; simpa [State.indexed] using hb
    · exact Prod.ext (Fin.ext hy.symm) (Fin.ext hx.symm)

end Sys2Proof.Machine
end

