-- ==== Sys2Proof/Laws/PerInstr.lean ====
section
/-! SUPPORT. Facts stated for every instruction as syntax, one lemma per constructor. FitsTable: the encoder's opcode lies in the row
of spec/opcode_table.json that the constructor stands for. -/
namespace Sys2Proof.Laws.FitsTable

/-- The row's `mask` (spec/opcode_table.json). -/
def mask : Instr → Word
  | .cls | .ret => 0xFFFF#16
  | .seReg _ _ | .ldReg _ _ | .orReg _ _ | .andReg _ _ | .xorReg _ _ | .addReg _ _ | .sub _ _ | .shr _ _ => 0xF00F#16
  | .subn _ _ | .shl _ _ | .sneReg _ _ => 0xF00F#16
  | .skp _ | .sknp _ | .ldVxDt _ | .ldVxK _ | .ldDtVx _ | .ldStVx _ | .addI _ | .ldF _ | .ldB _ => 0xF0FF#16
  | .stRegs _ | .ldRegs _ => 0xF0FF#16
  | .sys _ | .jp _ | .call _ | .seImm _ _ | .sneImm _ _ | .ldImm _ _ | .addImm _ _ | .ldI _ | .jpV0 _ => 0xF000#16
  | .rnd _ _ | .drw _ _ _ => 0xF000#16

/-- The row's `match` (spec/opcode_table.json). -/
def pattern : Instr → Word
  | .cls => 0x00E0#16
  | .ret => 0x00EE#16
  | .sys _ => 0x0000#16
  | .jp _ => 0x1000#16
  | .call _ => 0x2000#16
  | .seImm _ _ => 0x3000#16
  | .sneImm _ _ => 0x4000#16
  | .seReg _ _ => 0x5000#16
  | .ldImm _ _ => 0x6000#16
  | .addImm _ _ => 0x7000#16
  | .ldReg _ _ => 0x8000#16
  | .orReg _ _ => 0x8001#16
  | .andReg _ _ => 0x8002#16
  | .xorReg _ _ => 0x8003#16
  | .addReg _ _ => 0x8004#16
  | .sub _ _ => 0x8005#16
  | .shr _ _ => 0x8006#16
  | .subn _ _ => 0x8007#16
  | .shl _ _ => 0x800E#16
  | .sneReg _ _ => 0x9000#16
  | .ldI _ => 0xA000#16
  | .jpV0 _ => 0xB000#16
  | .rnd _ _ => 0xC000#16
  | .drw _ _ _ => 0xD000#16
  | .skp _ => 0xE09E#16
  | .sknp _ => 0xE0A1#16
  | .ldVxDt _ => 0xF007#16
  | .ldVxK _ => 0xF00A#16
  | .ldDtVx _ => 0xF015#16
  | .ldStVx _ => 0xF018#16
  | .addI _ => 0xF01E#16
  | .ldF _ => 0xF029#16
  | .ldB _ => 0xF033#16
  | .stRegs _ => 0xF055#16
  | .ldRegs _ => 0xF065#16

/-- The opcode has the row's fixed bits: `op AND mask = match` (INDEX.md "Row format"). -/
def Statement (i : Instr) : Prop := encode i &&& mask i = pattern i

theorem formA_fits (k : BitVec 4) (nnn : Addr) : formA k nnn &&& 0xF000#16 = k ++ 0#12 := by
  show (k ++ nnn : BitVec (4 + 12)) &&& (0xF#4 ++ 0x000#12) = k ++ 0#12
  rw [BitVec.and_append]
  simp [show (15#4) = BitVec.allOnes 4 from rfl, -BitVec.reduceAllOnes]

theorem formXi_fits (k : BitVec 4) (x : Reg) (nn : Byte) : formXi k x nn &&& 0xF000#16 = k ++ 0#12 := by
  show (k ++ (nibble x ++ nn) : BitVec (4 + 12)) &&& (0xF#4 ++ 0x000#12) = k ++ 0#12
  rw [BitVec.and_append]
  simp [show (15#4) = BitVec.allOnes 4 from rfl, -BitVec.reduceAllOnes]

theorem formX_fits (k : BitVec 4) (x : Reg) (nn : Byte) : formXi k x nn &&& 0xF0FF#16 = k ++ (0#4 ++ nn) := by
  show (k ++ (nibble x ++ nn) : BitVec (4 + (4 + 8))) &&& (0xF#4 ++ (0x0#4 ++ 0xFF#8)) = k ++ (0#4 ++ nn)
  rw [BitVec.and_append, BitVec.and_append]
  simp [show (15#4) = BitVec.allOnes 4 from rfl, show (255#8) = BitVec.allOnes 8 from rfl, -BitVec.reduceAllOnes]

theorem formXy_fits (k : BitVec 4) (x y : Reg) (n : BitVec 4) :
    formXy k x y n &&& 0xF00F#16 = k ++ (0#4 ++ (0#4 ++ n)) := by
  show (k ++ (nibble x ++ (nibble y ++ n)) : BitVec (4 + (4 + (4 + 4)))) &&& (0xF#4 ++ (0x0#4 ++ (0x0#4 ++ 0xF#4))) = _
  rw [BitVec.and_append, BitVec.and_append, BitVec.and_append]
  simp [show (15#4) = BitVec.allOnes 4 from rfl, -BitVec.reduceAllOnes]

theorem formXyn_fits (k : BitVec 4) (x y : Reg) (n : BitVec 4) : formXy k x y n &&& 0xF000#16 = k ++ 0#12 := by
  show (k ++ (nibble x ++ (nibble y ++ n)) : BitVec (4 + 12)) &&& (0xF#4 ++ 0x000#12) = k ++ 0#12
  rw [BitVec.and_append]
  simp [show (15#4) = BitVec.allOnes 4 from rfl, -BitVec.reduceAllOnes]

theorem cls : Statement .cls := by unfold Statement; decide
theorem ret : Statement .ret := by unfold Statement; decide
theorem sys (nnn : Addr) : Statement (.sys nnn) := formA_fits _ _
theorem jp (nnn : Addr) : Statement (.jp nnn) := formA_fits _ _
theorem call (nnn : Addr) : Statement (.call nnn) := formA_fits _ _
theorem seImm (x : Reg) (nn : Byte) : Statement (.seImm x nn) := formXi_fits _ _ _
theorem sneImm (x : Reg) (nn : Byte) : Statement (.sneImm x nn) := formXi_fits _ _ _
theorem seReg (x y : Reg) : Statement (.seReg x y) := formXy_fits _ _ _ _
theorem ldImm (x : Reg) (nn : Byte) : Statement (.ldImm x nn) := formXi_fits _ _ _
theorem addImm (x : Reg) (nn : Byte) : Statement (.addImm x nn) := formXi_fits _ _ _
theorem ldReg (x y : Reg) : Statement (.ldReg x y) := formXy_fits _ _ _ _
theorem orReg (x y : Reg) : Statement (.orReg x y) := formXy_fits _ _ _ _
theorem andReg (x y : Reg) : Statement (.andReg x y) := formXy_fits _ _ _ _
theorem xorReg (x y : Reg) : Statement (.xorReg x y) := formXy_fits _ _ _ _
theorem addReg (x y : Reg) : Statement (.addReg x y) := formXy_fits _ _ _ _
theorem sub (x y : Reg) : Statement (.sub x y) := formXy_fits _ _ _ _
theorem shr (x y : Reg) : Statement (.shr x y) := formXy_fits _ _ _ _
theorem subn (x y : Reg) : Statement (.subn x y) := formXy_fits _ _ _ _
theorem shl (x y : Reg) : Statement (.shl x y) := formXy_fits _ _ _ _
theorem sneReg (x y : Reg) : Statement (.sneReg x y) := formXy_fits _ _ _ _
theorem ldI (nnn : Addr) : Statement (.ldI nnn) := formA_fits _ _
theorem jpV0 (nnn : Addr) : Statement (.jpV0 nnn) := formA_fits _ _
theorem rnd (x : Reg) (nn : Byte) : Statement (.rnd x nn) := formXi_fits _ _ _
theorem drw (x y : Reg) (n : Fin 16) : Statement (.drw x y n) := formXyn_fits _ _ _ _
theorem skp (x : Reg) : Statement (.skp x) := formX_fits _ _ _
theorem sknp (x : Reg) : Statement (.sknp x) := formX_fits _ _ _
theorem ldVxDt (x : Reg) : Statement (.ldVxDt x) := formX_fits _ _ _
theorem ldVxK (x : Reg) : Statement (.ldVxK x) := formX_fits _ _ _
theorem ldDtVx (x : Reg) : Statement (.ldDtVx x) := formX_fits _ _ _
theorem ldStVx (x : Reg) : Statement (.ldStVx x) := formX_fits _ _ _
theorem addI (x : Reg) : Statement (.addI x) := formX_fits _ _ _
theorem ldF (x : Reg) : Statement (.ldF x) := formX_fits _ _ _
theorem ldB (x : Reg) : Statement (.ldB x) := formX_fits _ _ _
theorem stRegs (x : Reg) : Statement (.stRegs x) := formX_fits _ _ _
theorem ldRegs (x : Reg) : Statement (.ldRegs x) := formX_fits _ _ _

end Sys2Proof.Laws.FitsTable
end

