-- ==== Sys2Proof/Laws/Step.lean ====
section
/-! SUPPORT. What a step can answer, and each meaning as the operations it is made of. -/
namespace Sys2Proof.Machine

/-- A step to a next state waits for a key or executes the instruction it decoded (30_encoding.md R90). -/
theorem step_eq_next {s t : State} (h : step s = .next t) :
    (∃ x, s.wait = .awaitingKey x ∧ t = waitingStep x s) ∨
    (s.wait = .running ∧ ∃ i, decodeWord (fetchWord s) = .ok i ∧ exec i s = .next t) := by
  unfold step at h
  split at h
  · next x hx => exact Or.inl ⟨x, hx, (Host.Outcome.next.inj h).symm⟩
  · next hw =>
    refine Or.inr ⟨hw, ?_⟩
    unfold runOpcode at h
    split at h
    · next i hi => exact ⟨i, hi, h⟩
    · simp [raise] at h
    · simp [raise] at h

/-- A step to a fault is running, and rejects the opcode or executes an instruction that faults (30_encoding.md R90). -/
theorem step_eq_fault {s : State} {f : Fault} (h : step s = .fault f) :
    s.wait = .running ∧
    ((∃ op, decodeWord (fetchWord s) = .unassigned op ∧ f = .unknownOpcode s.pc (fetchWord s)) ∨
     ∃ i, decodeWord (fetchWord s) = .ok i ∧ exec i s = .fault f) := by
  unfold step at h
  split at h
  · simp at h
  · next hw =>
    refine ⟨hw, ?_⟩
    unfold runOpcode at h
    split at h
    · next i hi => exact Or.inr ⟨i, hi, h⟩
    · next op hop => exact Or.inl ⟨op, hop, by simpa [raise] using h.symm⟩
    · next ht => exact absurd ht (decodeWord_ne_truncated _)

/-- The waiting step, by what the edge detector sees (44_keypad_timers.md R205). -/
theorem waitingStep_none {x : Reg} {s : State} (h : s.firstRising = none) : waitingStep x s = s.snapshot := by
  simp [waitingStep, h]

theorem waitingStep_some {x : Reg} {s : State} {k : Key} (h : s.firstRising = some k) :
    waitingStep x s = ({ s.snapshot.setReg x (BitVec.ofNat 8 k.val) with wait := .running } : State).advance := by
  simp [waitingStep, h]

section
variable (x y : Reg) (nn : Byte) (nnn : Addr) (n : Fin 16) (s : State)

/-- CALL in a state with a free slot, and without one (40_control_flow.md R124). -/
theorem exec_call_push (h : s.sp.val < 16) :
    exec (.call nnn) s = .next { s with
      stack := s.stack.set s.sp.val s.next, sp := ⟨s.sp.val + 1, by omega⟩, pc := addrOperand nnn } := by
  simp [exec, execCall, State.push, h, State.setPc]

theorem exec_call_full (h : s.sp.val = 16) : exec (.call nnn) s = .fault .stackOverflow := by
  simp [exec, execCall, (State.push_eq_none s s.next).mpr h, raise]

/-- RET in a state with a live entry, and without one (40_control_flow.md R122). -/
theorem exec_ret_pop (h : 0 < s.sp.val) :
    exec .ret s = .next { s with sp := ⟨s.sp.val - 1, by omega⟩, pc := s.stack[s.sp.val - 1]'(by omega) } := by
  simp [exec, execRet, State.pop, h, State.setPc]

theorem exec_ret_empty (h : s.sp.val = 0) : exec .ret s = .fault .stackUnderflow := by
  simp [exec, execRet, (State.pop_eq_none s).mpr h, raise]

theorem exec_cls : exec .cls s = .next ({ s with fb := Screen.clear } : State).advance := rfl
theorem exec_sys : exec (.sys nnn) s = .fault (.unknownOpcode s.pc (encode (.sys nnn))) := rfl
theorem exec_jp : exec (.jp nnn) s = .next (s.setPc (addrOperand nnn)) := rfl
theorem exec_seImm : exec (.seImm x nn) s = .next (s.skipIf (s.reg x == nn)) := rfl
theorem exec_sneImm : exec (.sneImm x nn) s = .next (s.skipIf (s.reg x != nn)) := rfl
theorem exec_seReg : exec (.seReg x y) s = .next (s.skipIf (s.reg x == s.reg y)) := rfl
theorem exec_sneReg : exec (.sneReg x y) s = .next (s.skipIf (s.reg x != s.reg y)) := rfl
theorem exec_jpV0 :
    exec (.jpV0 nnn) s = .next (s.setPc (addrOperand nnn + (s.jumpOffset nnn).setWidth 16)) := rfl
theorem exec_ldImm : exec (.ldImm x nn) s = .next (s.setReg x nn).advance := rfl
theorem exec_addImm : exec (.addImm x nn) s = .next (s.setReg x (s.reg x + nn)).advance := rfl
theorem exec_ldReg : exec (.ldReg x y) s = .next (s.setReg x (s.reg y)).advance := rfl
theorem exec_orReg : exec (.orReg x y) s = .next (s.setReg x (s.reg x ||| s.reg y)).advance := rfl
theorem exec_andReg : exec (.andReg x y) s = .next (s.setReg x (s.reg x &&& s.reg y)).advance := rfl
theorem exec_xorReg : exec (.xorReg x y) s = .next (s.setReg x (s.reg x ^^^ s.reg y)).advance := rfl
theorem exec_addReg : exec (.addReg x y) s =
    .next (s.setRegFlag x (s.reg x + s.reg y) (carry (s.reg x) (s.reg y))).advance := rfl
theorem exec_sub : exec (.sub x y) s =
    .next (s.setRegFlag x (s.reg x - s.reg y) (noBorrow (s.reg x) (s.reg y))).advance := rfl
theorem exec_subn : exec (.subn x y) s =
    .next (s.setRegFlag x (s.reg y - s.reg x) (noBorrow (s.reg y) (s.reg x))).advance := rfl
theorem exec_shr : exec (.shr x y) s =
    .next (s.setRegFlag x (s.shiftSource x y >>> 1) (bitOutRight (s.shiftSource x y))).advance := rfl
theorem exec_shl : exec (.shl x y) s =
    .next (s.setRegFlag x (s.shiftSource x y <<< 1) (bitOutLeft (s.shiftSource x y))).advance := rfl
theorem exec_rnd : exec (.rnd x nn) s =
    .next (({ s with draws := s.draws + 1 } : State).setReg x (Config.rndByte s.draws &&& nn)).advance := rfl
theorem exec_ldI : exec (.ldI nnn) s = .next (s.setI (addrOperand nnn)).advance := rfl
theorem exec_addI : exec (.addI x) s = .next (s.setI (s.i + (s.reg x).setWidth 16)).advance := rfl
theorem exec_ldF : exec (.ldF x) s =
    .next (s.setI (BitVec.ofNat 16 (Config.fontBase + 5 * (s.lowNibble x).val))).advance := rfl
theorem exec_ldB : exec (.ldB x) s = .next (s.storeBytes s.i.toNat (decimalDigits (s.reg x))).advance := rfl
theorem exec_stRegs : exec (.stRegs x) s =
    .next ((s.storeBytes s.i.toNat (s.regBlock x)).afterBlock x).advance := rfl
theorem exec_ldRegs : exec (.ldRegs x) s =
    .next (({ s with v := loadRegs s.v 0 (memReadBytes s.mem s.i.toNat (x.val + 1)) } : State).afterBlock x).advance := rfl
theorem exec_drw : exec (.drw x y n) s =
    .next (({ s with fb := (compose s.fb (s.drawPlaces x y n)).1 } : State).setFlag
      (compose s.fb (s.drawPlaces x y n)).2).advance := rfl
theorem exec_skp : exec (.skp x) s = .next (s.skipIf (s.keyDown (s.lowNibble x))) := rfl
theorem exec_sknp : exec (.sknp x) s = .next (s.skipIf (!s.keyDown (s.lowNibble x))) := rfl
theorem exec_ldVxDt : exec (.ldVxDt x) s = .next (s.setReg x s.dt).advance := rfl
theorem exec_ldVxK : exec (.ldVxK x) s = .next ({ s with wait := .awaitingKey x } : State).snapshot := rfl
theorem exec_ldDtVx : exec (.ldDtVx x) s = .next (s.setDt (s.reg x)).advance := rfl
theorem exec_ldStVx : exec (.ldStVx x) s = .next (s.setSt (s.reg x)).advance := rfl

end

/-- An instruction that answers a next state is CALL with a free slot, RET with a live entry, or an instruction that neither
touches the stack nor is SYS; of these last the equations above give the next state. -/
theorem exec_eq_next {i : Instr} {s t : State} (h : exec i s = .next t) :
    (∃ nnn, i = .call nnn ∧ ∃ hl : s.sp.val < 16, t = { s with
      stack := s.stack.set s.sp.val s.next, sp := ⟨s.sp.val + 1, by omega⟩, pc := addrOperand nnn }) ∨
    (i = .ret ∧ ∃ hl : 0 < s.sp.val, t = { s with
      sp := ⟨s.sp.val - 1, by omega⟩, pc := s.stack[s.sp.val - 1]'(by omega) }) ∨
    (usesStack i = false ∧ ∀ nnn, i ≠ .sys nnn) := by
  cases i
  case call nnn =>
    rcases Nat.lt_or_ge s.sp.val 16 with hl | hl
    · rw [exec_call_push nnn s hl] at h; cases h; exact Or.inl ⟨nnn, rfl, hl, rfl⟩
    · rw [exec_call_full nnn s (by have := s.sp.isLt; omega)] at h; simp at h
  case ret =>
    rcases Nat.eq_zero_or_pos s.sp.val with hl | hl
    · rw [exec_ret_empty s hl] at h; simp at h
    · rw [exec_ret_pop s hl] at h; cases h; exact Or.inr (Or.inl ⟨rfl, hl, rfl⟩)
  case sys => simp [exec_sys] at h
  all_goals exact Or.inr (Or.inr ⟨rfl, by simp⟩)

/-- An instruction that faults is SYS, CALL with 16 live entries or RET with none. -/
theorem exec_eq_fault {i : Instr} {s : State} {f : Fault} (h : exec i s = .fault f) :
    (∃ nnn, i = .sys nnn ∧ f = .unknownOpcode s.pc (encode (.sys nnn))) ∨
    (∃ nnn, i = .call nnn ∧ s.sp.val = 16 ∧ f = .stackOverflow) ∨
    (i = .ret ∧ s.sp.val = 0 ∧ f = .stackUnderflow) := by
  cases i
  case sys nnn => exact Or.inl ⟨nnn, rfl, by simpa [exec_sys] using h.symm⟩
  case call nnn =>
    rcases Nat.lt_or_ge s.sp.val 16 with hl | hl
    · rw [exec_call_push nnn s hl] at h; simp at h
    · have hfull : s.sp.val = 16 := by have := s.sp.isLt; omega
      rw [exec_call_full nnn s hfull] at h; cases h; exact Or.inr (Or.inl ⟨nnn, rfl, hfull, rfl⟩)
  case ret =>
    rcases Nat.eq_zero_or_pos s.sp.val with hl | hl
    · rw [exec_ret_empty s hl] at h; cases h; exact Or.inr (Or.inr ⟨rfl, hl, rfl⟩)
    · rw [exec_ret_pop s hl] at h; simp at h
  all_goals cases h

end Sys2Proof.Machine
end

