-- ==== Sys2Proof/Laws/Transactions.lean ====
section
/-! SUPPORT. What the transactions of the interface can answer. -/
namespace Sys2Proof.Machine

/-- A STEP with a given byte is `step`, or it is running and fetched RND (00_scope.md R7, 41_alu.md R154). -/
theorem stepWith_cases (r : Byte) (s : State) :
    stepWith r s = step s ∨
    (s.wait = .running ∧ ∃ x nn, decodeWord (fetchWord s) = .ok (.rnd x nn) ∧ stepWith r s = .next (s.setReg x (r &&& nn)).advance) := by
  unfold stepWith
  split
  · next x nn hw hd => exact Or.inr ⟨hw, x, nn, hd, rfl⟩
  · exact Or.inl rfl

/-- A running STEP that fetched RND is the RND of its own byte (41_alu.md R154). -/
theorem stepWith_rnd {r : Byte} {s : State} {x : Reg} {nn : Byte} (hw : s.wait = .running)
    (hd : decodeWord (fetchWord s) = .ok (.rnd x nn)) : stepWith r s = .next (s.setReg x (r &&& nn)).advance := by
  simp [stepWith, hw, hd, randomInto, finishReg]

/-- The `awaiting` a STEP returns, by the outcome of the STEP (44_keypad_timers.md R206). -/
@[simp] theorem stepAwaiting_next {r : Byte} {s t : State} (h : stepWith r s = .next t) : stepAwaiting r s = some (awaiting t) := by
  simp [stepAwaiting, h]

@[simp] theorem stepAwaiting_fault {r : Byte} {s : State} {f : Fault} (h : stepWith r s = .fault f) : stepAwaiting r s = none := by
  simp [stepAwaiting, h]

/-- What LOAD leaves in memory, address by address: the ROM, the font's constant, the background (70_reset_and_hazards.md R250). -/
theorem memRead_loadedMemory (bg : Memory) {rom : List Byte} (h : rom.length ≤ 3584) {a : Nat} (ha : a < 4096) :
    memRead (loadedMemory bg rom) a =
      if 0x200 ≤ a ∧ a < 0x200 + rom.length then rom.getD (a - 0x200) 0#8
      else if 0x050 ≤ a ∧ a < 0x0A0 then Config.fontData.getD (a - 0x050) 0#8
      else memRead bg a := by
  have hf : Config.fontData.length = 80 := by decide
  unfold loadedMemory
  split_ifs with h1 h2
  · obtain ⟨k, rfl⟩ := Nat.exists_eq_add_of_le h1.1
    rw [memRead_memWriteBytes _ _ _ _ (by omega) (by omega)]
    simp [List.getD_eq_getElem?_getD, show k < rom.length by omega]
  · obtain ⟨k, rfl⟩ := Nat.exists_eq_add_of_le h2.1
    rw [memRead_memWriteBytes_other _ _ _ _ (by intro j hj; show _ ≠ (512 + j) % 4096; omega),
      show (0x050 : Nat) = Config.fontBase from rfl, memRead_memWriteBytes _ _ _ _ (by omega) (by omega)]
    simp [List.getD_eq_getElem?_getD, show k < Config.fontData.length by omega]
  · rw [memRead_memWriteBytes_other _ _ _ _ (by intro j hj; show _ ≠ (512 + j) % 4096; omega),
      memRead_memWriteBytes_other _ _ _ _ (by intro j hj; show _ ≠ (80 + j) % 4096; omega)]

/-- A LOAD that succeeds, by the length of its ROM (70_reset_and_hazards.md R250). -/
theorem load_short {rom : List Byte} (bg : Memory) (p : Profile) (s : State) (h : rom.length ≤ 3584) :
    load bg rom p s = .next { s.clearRegisters p with mem := loadedMemory bg rom } := by
  simp [load, Nat.not_lt.mpr h]

/-- A LOAD that fails (70_reset_and_hazards.md R251). -/
theorem load_long {rom : List Byte} (bg : Memory) (p : Profile) (s : State) (h : 3584 < rom.length) :
    load bg rom p s = .fault .romTooLarge := by
  simp [load, h, raise]

/-- A history's first transaction, and then the rest (00_scope.md R8). -/
theorem runHistory_cons_next {e : Transaction} {ts : List Transaction} {s t : State} (h : runHistory (e :: ts) s = .next t) :
    ∃ u, transact e s = .next u ∧ runHistory ts u = .next t := by
  simp only [runHistory] at h
  split at h
  · next u he => exact ⟨u, he, h⟩
  · simp at h
  · simp at h

end Sys2Proof.Machine
end

