-- ==== Sys2Proof/Tests/Slice0.lean ====
section
/-! SUPPORT. The model's own tests. Expected results are the spec's: 95_test_vectors.md (S, T and P numbers), or the encoding rows of
30_encoding.md. -/
namespace Sys2Proof.Tests

open Sys2Proof.Machine

/-- What is observed of a next state. -/
def seen {α : Type} (r : Result) (f : State → α) : Option α :=
  match r with
  | .next s => some (f s)
  | .fault _ | .refused _ => none

/-- The fault a transaction answers. -/
def faultOf (r : Result) : Option Fault :=
  match r with
  | .fault f => some f
  | .next _ | .refused _ => none

/-- The state of the test vectors: reset under `p`, the opcode at 0x200. -/
def start (p : Profile) (op : Nat) : State := (State.resetUnder p).withFetchWord 16 op

/-! WellFormed: the one check, and a term it refuses for each of its two cases. -/

theorem test_wf_refuses_sys_0E0 : WellFormed (.sys 0x0E0#12) = false := by decide
theorem test_wf_refuses_sys_0EE : WellFormed (.sys 0x0EE#12) = false := by decide
theorem test_wf_takes_sys_0E1 : WellFormed (.sys 0x0E1#12) = true := by decide

/-! Decoding: one word for each constructor, written out from the row's pattern (30_encoding.md R95 to R100). -/

theorem test_decode_cls : decodeWord 0b0000000011100000#16 = .ok .cls := by decide
theorem test_decode_ret : decodeWord 0b0000000011101110#16 = .ok .ret := by decide
theorem test_decode_sys : decodeWord 0b0000000100100011#16 = .ok (.sys 0x123#12) := by decide
theorem test_decode_jp : decodeWord 0b0001001000110100#16 = .ok (.jp 0x234#12) := by decide
theorem test_decode_call : decodeWord 0b0010101010111100#16 = .ok (.call 0xABC#12) := by decide
theorem test_decode_seImm : decodeWord 0b0011101000000001#16 = .ok (.seImm 0xA 0x01#8) := by decide
theorem test_decode_sneImm : decodeWord 0b0100001100101010#16 = .ok (.sneImm 3 0x2A#8) := by decide
theorem test_decode_seReg : decodeWord 0b0101000100100000#16 = .ok (.seReg 1 2) := by decide
theorem test_decode_ldImm : decodeWord 0b0110101001000010#16 = .ok (.ldImm 0xA 0x42#8) := by decide
theorem test_decode_addImm : decodeWord 0b0111000111111110#16 = .ok (.addImm 1 0xFE#8) := by decide
theorem test_decode_ldReg : decodeWord 0b1000000100100000#16 = .ok (.ldReg 1 2) := by decide
theorem test_decode_orReg : decodeWord 0b1000000100100001#16 = .ok (.orReg 1 2) := by decide
theorem test_decode_andReg : decodeWord 0b1000000100100010#16 = .ok (.andReg 1 2) := by decide
theorem test_decode_xorReg : decodeWord 0b1000000100100011#16 = .ok (.xorReg 1 2) := by decide
theorem test_decode_addReg : decodeWord 0b1000111100000100#16 = .ok (.addReg 0xF 0) := by decide
theorem test_decode_sub : decodeWord 0b1000000100100101#16 = .ok (.sub 1 2) := by decide
theorem test_decode_shr : decodeWord 0b1000000000010110#16 = .ok (.shr 0 1) := by decide
theorem test_decode_subn : decodeWord 0b1000000100100111#16 = .ok (.subn 1 2) := by decide
theorem test_decode_shl : decodeWord 0b1000000100101110#16 = .ok (.shl 1 2) := by decide
theorem test_decode_sneReg : decodeWord 0b1001101010110000#16 = .ok (.sneReg 0xA 0xB) := by decide
theorem test_decode_ldI : decodeWord 0b1010001011110000#16 = .ok (.ldI 0x2F0#12) := by decide
theorem test_decode_jpV0 : decodeWord 0b1011001000010000#16 = .ok (.jpV0 0x210#12) := by decide
theorem test_decode_rnd : decodeWord 0b1100001100001111#16 = .ok (.rnd 3 0x0F#8) := by decide
theorem test_decode_drw : decodeWord 0b1101000100100101#16 = .ok (.drw 1 2 5) := by decide
theorem test_decode_skp : decodeWord 0b1110001010011110#16 = .ok (.skp 2) := by decide
theorem test_decode_sknp : decodeWord 0b1110001010100001#16 = .ok (.sknp 2) := by decide
theorem test_decode_ldVxDt : decodeWord 0b1111010100000111#16 = .ok (.ldVxDt 5) := by decide
theorem test_decode_ldVxK : decodeWord 0b1111001100001010#16 = .ok (.ldVxK 3) := by decide
theorem test_decode_ldDtVx : decodeWord 0b1111010100010101#16 = .ok (.ldDtVx 5) := by decide
theorem test_decode_ldStVx : decodeWord 0b1111010100011000#16 = .ok (.ldStVx 5) := by decide
theorem test_decode_addI : decodeWord 0b1111001000011110#16 = .ok (.addI 2) := by decide
theorem test_decode_ldF : decodeWord 0b1111010000101001#16 = .ok (.ldF 4) := by decide
theorem test_decode_ldB : decodeWord 0b1111001100110011#16 = .ok (.ldB 3) := by decide
theorem test_decode_stRegs : decodeWord 0b1111000101010101#16 = .ok (.stRegs 1) := by decide
theorem test_decode_ldRegs : decodeWord 0b1111001001100101#16 = .ok (.ldRegs 2) := by decide

/-- R101: opcodes of each illegal group (T14, T17, T56, T57, T105, T84). -/
theorem test_decode_illegal :
    decodeWord 0x5AB1#16 = .unassigned 0x5AB1#16 ∧ decodeWord 0x9ABF#16 = .unassigned 0x9ABF#16 ∧
    decodeWord 0x8128#16 = .unassigned 0x8128#16 ∧ decodeWord 0x812F#16 = .unassigned 0x812F#16 ∧
    decodeWord 0xE29F#16 = .unassigned 0xE29F#16 ∧ decodeWord 0xF234#16 = .unassigned 0xF234#16 := by decide

theorem test_decode_truncated : decodeBytes [0x12#8] = .truncated := by decide

/-- Big-endian: the first byte is the upper one (T123). -/
theorem test_table_word : decodeTableWord 16 0x1234 = some (.jp 0x234#12) := by decide

/-! Control flow. -/

/-- T1. -/
theorem test_sys_faults : faultOf (step (start .original 0x0000)) = some (.unknownOpcode 0x0200#16 0x0000#16) := by decide
/-- T2. -/
theorem test_sys_reports_its_opcode :
    faultOf (step (start .original 0x0123)) = some (.unknownOpcode 0x0200#16 0x0123#16) := by decide
/-- T3. -/
theorem test_ret_underflows : faultOf (step (start .original 0x00EE)) = some .stackUnderflow := by decide
/-- T4. -/
theorem test_ret_pops :
    seen (step { start .original 0x00EE with sp := 2, stack := (Vector.replicate 16 0#16).set 1 0x0456#16 })
      (fun t => (t.pc, t.sp)) = some (0x0456#16, 1) := by decide
/-- T5: the jump to 0xFFF. -/
theorem test_jp : seen (step (start .original 0x1FFF)) (·.pc) = some 0x0FFF#16 := by decide
/-- T7. -/
theorem test_call_takes_the_last_slot :
    seen (step { start .original 0x2ABC with sp := 15 }) (fun t => (t.pc, t.sp, t.stack[15])) =
      some (0x0ABC#16, 16, 0x0202#16) := by decide
/-- T8. -/
theorem test_call_overflows : faultOf (step { start .original 0x2ABC with sp := 16 }) = some .stackOverflow := by decide
/-- T9, T10. -/
theorem test_seImm :
    seen (step (start .original 0x3A00)) (·.pc) = some 0x0204#16 ∧
    seen (step (start .original 0x3A01)) (·.pc) = some 0x0202#16 := by decide
/-- T20: a skip at pc = 0xFFFE wraps mod 65536. -/
theorem test_seImm_wraps_pc :
    seen (step (({ State.reset with pc := 0xFFFE#16 } : State).withFetchWord 16 0x3A00)) (·.pc) = some 0x0002#16 := by decide
/-- T11, T12. -/
theorem test_sneImm :
    seen (step (start .original 0x4A00)) (·.pc) = some 0x0202#16 ∧
    seen (step (start .original 0x4A01)) (·.pc) = some 0x0204#16 := by decide
/-- T13. -/
theorem test_seReg : seen (step ((start .original 0x5AA0).setReg 0xA 0x77#8)) (·.pc) = some 0x0204#16 := by decide
/-- T15, T16. -/
theorem test_sneReg :
    seen (step (((start .original 0x9AB0).setReg 0xA 1#8).setReg 0xB 1#8)) (·.pc) = some 0x0202#16 ∧
    seen (step (((start .original 0x9AB0).setReg 0xA 1#8).setReg 0xB 2#8)) (·.pc) = some 0x0204#16 := by decide
/-- T18. -/
theorem test_jpV0 :
    seen (step (((start .original 0xB2FF).setReg 0 0xFF#8).setReg 2 0x10#8)) (·.pc) = some 0x03FE#16 ∧
    seen (step (((start .modern 0xB2FF).setReg 0 0xFF#8).setReg 2 0x10#8)) (·.pc) = some 0x030F#16 := by decide
/-- T19: the sum is not reduced to 12 bits. -/
theorem test_jpV0_is_unmasked :
    seen (step ((start .original 0xBFFF).setReg 0 0xFF#8)) (·.pc) = some 0x10FE#16 := by decide

/-! Register load, arithmetic and logic. -/

/-- T30. -/
theorem test_ldImm : seen (step (start .original 0x6F42)) (fun t => (t.reg 0xF, t.pc)) = some (0x42#8, 0x0202#16) := by decide
/-- S4 (a): no carry is recorded. -/
theorem test_addImm :
    seen (step (((start .original 0x7101).setReg 1 0xFF#8).setReg 0xF 0x5A#8)) (fun t => (t.reg 1, t.reg 0xF)) =
      some (0x00#8, 0x5A#8) := by decide
/-- T33. -/
theorem test_ldReg :
    seen (step (((start .original 0x8120).setReg 1 1#8).setReg 2 0x33#8)) (·.reg 1) = some 0x33#8 := by decide
/-- T34. -/
theorem test_orReg :
    seen (step ((((start .original 0x8121).setReg 1 0xF0#8).setReg 2 0x0F#8).setReg 0xF 9#8)) (fun t => (t.reg 1, t.reg 0xF)) =
      some (0xFF#8, 9#8) := by decide
/-- T35. -/
theorem test_andReg :
    seen (step ((((start .original 0x8122).setReg 1 0xF0#8).setReg 2 0x3C#8).setReg 0xF 9#8)) (fun t => (t.reg 1, t.reg 0xF)) =
      some (0x30#8, 9#8) := by decide
/-- T36. -/
theorem test_xorReg :
    seen (step ((((start .original 0x8123).setReg 1 0xF0#8).setReg 2 0x3C#8).setReg 0xF 9#8)) (fun t => (t.reg 1, t.reg 0xF)) =
      some (0xCC#8, 9#8) := by decide
/-- T39. -/
theorem test_addReg_carries :
    seen (step (((start .original 0x8124).setReg 1 0x80#8).setReg 2 0x80#8)) (fun t => (t.reg 1, t.reg 0xF)) =
      some (0x00#8, 1#8) := by decide
/-- T41: the carry overwrites the sum. -/
theorem test_addReg_into_vf :
    seen (step (((start .original 0x8F04).setReg 0xF 1#8).setReg 0 0xFF#8)) (·.reg 0xF) = some 1#8 := by decide
/-- T44. -/
theorem test_sub_borrows :
    seen (step (((start .original 0x8125).setReg 1 5#8).setReg 2 7#8)) (fun t => (t.reg 1, t.reg 0xF)) =
      some (0xFE#8, 0#8) := by decide
/-- T45. -/
theorem test_sub_equal :
    seen (step (((start .original 0x8125).setReg 1 5#8).setReg 2 5#8)) (fun t => (t.reg 1, t.reg 0xF)) =
      some (0x00#8, 1#8) := by decide
/-- T47. -/
theorem test_subn :
    seen (step (((start .original 0x8127).setReg 1 5#8).setReg 2 7#8)) (fun t => (t.reg 1, t.reg 0xF)) =
      some (0x02#8, 1#8) := by decide
/-- T48. -/
theorem test_subn_borrows :
    seen (step (((start .original 0x8127).setReg 1 7#8).setReg 2 5#8)) (fun t => (t.reg 1, t.reg 0xF)) =
      some (0xFE#8, 0#8) := by decide
/-- T50 under both profiles. -/
theorem test_shr :
    seen (step (((start .original 0x8126).setReg 1 0xFF#8).setReg 2 2#8)) (fun t => (t.reg 1, t.reg 0xF)) =
      some (0x01#8, 0#8) ∧
    seen (step (((start .modern 0x8126).setReg 1 0xFF#8).setReg 2 2#8)) (fun t => (t.reg 1, t.reg 0xF)) =
      some (0x7F#8, 1#8) := by decide
/-- T52. -/
theorem test_shr_vf : seen (step ((start .modern 0x8FF6).setReg 0xF 7#8)) (·.reg 0xF) = some 1#8 := by decide
/-- T53 under both profiles. -/
theorem test_shl :
    seen (step (((start .original 0x812E).setReg 1 0x81#8).setReg 2 0x40#8)) (fun t => (t.reg 1, t.reg 0xF)) =
      some (0x80#8, 0#8) ∧
    seen (step (((start .modern 0x812E).setReg 1 0x81#8).setReg 2 0x40#8)) (fun t => (t.reg 1, t.reg 0xF)) =
      some (0x02#8, 1#8) := by decide
/-- T58, with the STEP's rnd given. -/
theorem test_rnd : seen (randomInto 0xA7#8 3 0x0F#8 (start .original 0xC30F)) (·.reg 3) = some 0x07#8 := by decide
/-- T59, whatever byte is drawn. -/
theorem test_rnd_mask_zero : seen (step (start .original 0xC300)) (·.reg 3) = some 0x00#8 := by
  have h : step (start .original 0xC300) =
      randomInto (Config.rndByte 0) 3 0x00#8 { start .original 0xC300 with draws := 1 } := by rfl
  simp [h, seen, randomInto, finishReg, State.advance, State.setPc, State.reg, State.setReg]

/-! Index and memory. -/

/-- T70. -/
theorem test_ldI : seen (step (start .original 0xAFFF)) (·.i) = some 0x0FFF#16 := by decide
/-- T71: the sum wraps and no flag is written. -/
theorem test_addI_wraps :
    seen (step { ((start .original 0xF21E).setReg 2 1#8).setReg 0xF 9#8 with i := 0x0FFF#16 }) (fun t => (t.i, t.reg 0xF)) =
      some (0x0000#16, 9#8) := by decide
/-- T72. -/
theorem test_addI : seen (step { (start .original 0xF21E).setReg 2 0xFF#8 with i := 0x0F80#16 }) (·.i) = some 0x007F#16 := by decide
/-- T74, T75. -/
theorem test_ldF :
    seen (step ((start .original 0xF429).setReg 4 0x0F#8)) (·.i) = some 0x009B#16 ∧
    seen (step ((start .original 0xF429).setReg 4 0x1A#8)) (·.i) = some 0x0082#16 := by decide
/-- T77: across the end of memory, I unchanged. -/
theorem test_ldB_wraps :
    seen (step { (start .original 0xF333).setReg 3 0xFF#8 with i := 0x0FFE#16 })
      (fun t => (memReadBytes t.mem 0xFFE 3, t.i)) = some ([2#8, 5#8, 5#8], 0x0FFE#16) := by decide
/-- T78. -/
theorem test_ldB :
    seen (step { (start .original 0xF333).setReg 3 100#8 with i := 0x0300#16 }) (fun t => memReadBytes t.mem 0x300 3) =
      some [1#8, 0#8, 0#8] := by decide
/-- T79 under both profiles. -/
theorem test_stRegs_wraps :
    seen (step { ((start .original 0xF155).setReg 0 0xAB#8).setReg 1 0xCD#8 with i := 0x0FFF#16 })
      (fun t => (memRead t.mem 0xFFF, memRead t.mem 0, t.i)) = some (0xAB#8, 0xCD#8, 0x0001#16) ∧
    seen (step { ((start .modern 0xF155).setReg 0 0xAB#8).setReg 1 0xCD#8 with i := 0x0FFF#16 })
      (fun t => (memRead t.mem 0xFFF, memRead t.mem 0, t.i)) = some (0xAB#8, 0xCD#8, 0x0FFF#16) := by decide
/-- T80: x = 0 stores V0 only. -/
theorem test_stRegs_one :
    seen (step { ((start .original 0xF055).setReg 0 0x11#8).setReg 1 0x22#8 with i := 0x0400#16 })
      (fun t => (memRead t.mem 0x400, memRead t.mem 0x401, t.i)) = some (0x11#8, 0#8, 0x0401#16) := by decide
/-- T82: V3, above x, keeps its value. -/
theorem test_ldRegs :
    seen (step { ((start .original 0xF265).setReg 3 0x77#8).storeBytes 0x400 [0xAA#8, 0xBB#8, 0xCC#8, 0xDD#8] with i := 0x0400#16 })
      (fun t => (t.reg 0, t.reg 1, t.reg 2, t.reg 3, t.i)) =
      some (0xAA#8, 0xBB#8, 0xCC#8, 0x77#8, 0x0403#16) := by decide
/-- T83: the first two font bytes. -/
theorem test_ldRegs_font :
    seen (step { start .modern 0xF165 with i := 0x0050#16 }) (fun t => (t.reg 0, t.reg 1, t.i)) =
      some (0xF0#8, 0x90#8, 0x0050#16) := by decide

/-! Display. -/

/-- T90. -/
theorem test_cls :
    seen (step { (start .original 0x00E0).setReg 0xF 9#8 with fb := Screen.clear.setPixel 5 5 true })
      (fun t => (t.fb.pixel 5 5, t.reg 0xF, t.pc)) = some (false, 9#8, 0x0202#16) := by decide
/-- T93: wraps over both edges. -/
theorem test_drw_wraps :
    seen (step { (((start .original 0xD012).setReg 0 0xFF#8).setReg 1 0xFF#8).storeBytes 0x300 [0xFF#8, 0x81#8] with i := 0x300#16 })
      (fun t => ([t.fb.pixel 31 63, t.fb.pixel 31 6, t.fb.pixel 31 7, t.fb.pixel 0 63, t.fb.pixel 0 0, t.fb.pixel 0 6], t.reg 0xF)) =
      some ([true, true, false, true, false, true], 0#8) := by decide
/-- T95: a collision. -/
theorem test_drw_collides :
    seen (step { (start .original 0xD011).storeBytes 0x300 [0x80#8] with
        i := 0x300#16, fb := (Screen.clear.setPixel 0 0 true).setPixel 0 1 true })
      (fun t => (t.fb.pixel 0 0, t.fb.pixel 0 1, t.reg 0xF)) = some (false, true, 1#8) := by decide

/-! Keypad and timers. -/

/-- T102: the low nibble names the key. -/
theorem test_skp :
    seen (step (setKey 5 true ((start .original 0xE29E).setReg 2 0x15#8))) (·.pc) = some 0x0204#16 ∧
    seen (step ((start .original 0xE29E).setReg 2 5#8)) (·.pc) = some 0x0202#16 := by decide
/-- T103, T104. -/
theorem test_sknp :
    seen (step (setKey 5 true ((start .original 0xE2A1).setReg 2 5#8))) (·.pc) = some 0x0202#16 ∧
    seen (step ((start .original 0xE2A1).setReg 2 5#8)) (·.pc) = some 0x0204#16 := by decide
/-- T106. -/
theorem test_ldVxDt : seen (step ((start .original 0xF507).setDt 0x3C#8)) (·.reg 5) = some 0x3C#8 := by decide
/-- T107. -/
theorem test_ldDtVx : seen (step ((start .original 0xF515).setReg 5 0x3C#8)) (·.dt) = some 0x3C#8 := by decide
/-- T108. -/
theorem test_ldStVx :
    seen (step ((start .original 0xF518).setReg 5 2#8)) (fun t => (t.st, sound t)) = some (2#8, true) := by decide
/-- T112: a held key does not count. -/
theorem test_ldVxK_enters :
    seen (step (setKey 4 true (start .original 0xF30A))) (fun t => (t.wait, t.keyPrev[4], t.pc, awaiting t)) =
      some (.awaitingKey 3, true, 0x0200#16, true) := by decide
/-- T116: the lowest rising key. -/
theorem test_waiting_takes_the_lowest_key :
    seen (step (setKey 2 true (setKey 9 true { State.reset with wait := .awaitingKey 3 })))
      (fun t => (t.reg 3, t.wait, t.pc)) = some (2#8, .running, 0x0202#16) := by decide
/-- T114: a release only moves the snapshot. -/
theorem test_waiting_goes_on :
    seen (step { State.reset with wait := .awaitingKey 3, keyPrev := (Vector.replicate 16 false).set 4 true })
      (fun t => (t.keyPrev[4], t.wait, t.pc)) = some (false, .awaitingKey 3, 0x0200#16) := by decide

/-! Transactions, fetch and memory corner cases. -/

/-- T109, T110, T111. -/
theorem test_tick :
    (tick { State.reset with dt := 2#8, st := 1#8 }).dt = 1#8 ∧ (tick { State.reset with dt := 2#8, st := 1#8 }).st = 0#8 ∧
    (tick State.reset).dt = 0#8 ∧ (tick { State.reset with dt := 0xFF#8 }).dt = 0xFE#8 := by decide
/-- T120: a fetch across the end of memory. -/
theorem test_fetch_wraps :
    seen (step { (State.reset.storeBytes 0xFFF [0x6A#8, 0x42#8]) with pc := 0x0FFF#16 }) (fun t => (t.reg 0xA, t.pc)) =
      some (0x42#8, 0x1001#16) := by decide
/-- T121: a fetch at an odd address. -/
theorem test_fetch_odd :
    seen (step { (State.reset.storeBytes 0x201 [0x6A#8, 0x42#8]) with pc := 0x0201#16 }) (fun t => (t.reg 0xA, t.pc)) =
      some (0x42#8, 0x0203#16) := by decide
/-- T125: LOAD of an empty ROM, then STEP. -/
theorem test_empty_rom :
    faultOf (runHistory [.load [] [] .original, .step 0#8] State.reset) = some (.unknownOpcode 0x0200#16 0x0000#16) := by decide +kernel
/-- The ROM of S7 is loaded at 0x200 and its first step is CLS. -/
theorem test_load :
    seen (runHistory [.load [] [0x00#8, 0xE0#8, 0x12#8, 0x00#8] .modern, .step 0#8] State.reset)
      (fun t => (t.pc, t.profile, memRead t.mem 0x202)) = some (0x0202#16, .modern, 0x12#8) := by decide +kernel
/-- S2: the check of the ROM's length at its two sides. -/
theorem test_rom_too_large (rom : List Byte) (h : rom.length = 3585) :
    faultOf (load [] rom .original State.reset) = some .romTooLarge := by
  simp [load, raise, faultOf, h]
/-- T124: a store below 0x200 reaches the font. -/
theorem test_store_reaches_font :
    seen (step { (start .original 0xF055).setReg 0 0xFF#8 with i := 0x0050#16 }) (fun t => memRead t.mem 0x50) =
      some 0xFF#8 := by decide

/-! Witnesses: for each statement with hypotheses, a state and operands that meet them, one for each clause. -/

theorem witness_StepRunsTheDecodedInstruction_waiting :
    ({ State.reset with wait := .awaitingKey 3 } : State).wait = .awaitingKey 3 := rfl
theorem witness_StepRunsTheDecodedInstruction_decodes :
    (start .original 0x00E0).wait = .running ∧ decodeWord (fetchWord (start .original 0x00E0)) = .ok .cls := by decide
theorem witness_StepRunsTheDecodedInstruction_illegal :
    (start .original 0xFFFF).wait = .running ∧ decodeWord (fetchWord (start .original 0xFFFF)) = .unassigned 0xFFFF#16 := by
  decide
theorem witness_PcsThatAgreeModMemoryFetchTheSame : (0x1200#16).toNat % 4096 = State.reset.pc.toNat % 4096 := by decide
theorem witness_DecodeOfEncode : WellFormed (.sys 0x0E1#12) = true ∧ WellFormed (.drw 15 15 15) = true := by decide
theorem witness_EncodeOfDecode : decodeWord 0x8016#16 = .ok (.shr 0 1) := by decide
theorem witness_IllegalOpcodes_illegal :
    (start .original 0x5AB1).wait = .running ∧ illegal (fetchWord (start .original 0x5AB1)) = true := by decide
theorem witness_IllegalOpcodes_legal :
    illegal 0x00E0#16 = false ∧ illegal 0x5AB0#16 = false ∧ illegal 0xF065#16 = false := by decide
theorem witness_IllegalOpcodes_fault : faultOf (step (start .original 0x5AB1)) = some (.unknownOpcode 0x0200#16 0x5AB1#16) := by decide
theorem witness_CanonicalMemories : Memory.wf [(0x300, 1#8), (0xFFF, 2#8)] = true := by decide
theorem witness_LoadSets_lengths : (List.replicate 3584 0#8).length ≤ 3584 ∧ ([] : List Byte).length ≤ 3584 :=
  ⟨Nat.le_of_eq List.length_replicate, Nat.zero_le _⟩
/-- Each clause of the loaded memory at its two ends. -/
theorem witness_LoadSets_clauses :
    (memRead (loadedMemory [] [7#8]) 0x04F, memRead (loadedMemory [] [7#8]) 0x050) = (0#8, 0xF0#8) ∧
    (memRead (loadedMemory [] [7#8]) 0x09F, memRead (loadedMemory [] [7#8]) 0x0A0) = (0x80#8, 0#8) ∧
    (memRead (loadedMemory [] [7#8]) 0x1FF, memRead (loadedMemory [] [7#8]) 0x200) = (0#8, 7#8) ∧
    memRead (loadedMemory [] [7#8]) 0x201 = 0#8 := by decide +kernel
theorem witness_EveryStepKeeps : ∃ t, (start .original 0x00E0).Inv ∧ step (start .original 0x00E0) = .next t :=
  ⟨_, by decide, rfl⟩
theorem witness_EveryHistoryKeeps :
    State.reset.Inv ∧ (∀ e ∈ [Transaction.load [] [] .modern, .tick, .setKey 3 true], e.wf) ∧
    (seen (runHistory [.load [] [] .modern, .tick, .setKey 3 true] State.reset) (·.pc)).isSome = true := by
  refine ⟨by decide, ?_, by decide +kernel⟩
  simp [Transaction.wf, Memory.wf, Memory.wfFrom]
theorem witness_StepFaults :
    faultOf (step (start .original 0xFFFF)) = some (.unknownOpcode 0x0200#16 0xFFFF#16) ∧
    faultOf (step { start .original 0x2300 with sp := 16 }) = some .stackOverflow ∧
    faultOf (step (start .original 0x00EE)) = some .stackUnderflow := by decide
theorem witness_FaultRecurs :
    faultOf (step (start .original 0x00EE)) = some .stackUnderflow ∧
    (∀ e ∈ [Transaction.tick, .setKey 3 true], e.isEvent) := by
  refine ⟨by decide, ?_⟩
  simp [Transaction.isEvent]
theorem witness_ProfileChanges : readsProfile (.addReg 1 2) = false ∧ (seen (step (start .modern 0x8124)) (·.pc)).isSome = true := by
  decide
theorem witness_OnlyCallAndRet : ∃ t, usesStack .cls = false ∧ exec .cls State.reset = .next t := ⟨_, rfl, rfl⟩
theorem witness_OnlyClsAndDrw : ∃ t, writesDisplay (.ldB 1) = false ∧ exec (.ldB 1) State.reset = .next t := ⟨_, rfl, rfl⟩
theorem witness_OnlyBcdAndBlockStore : ∃ t, writesMemory .cls = false ∧ exec .cls State.reset = .next t := ⟨_, rfl, rfl⟩
theorem witness_IndexIsWritten_not :
    ∃ t, writesIndex .modern (.stRegs 1) = false ∧ exec (.stRegs 1) (State.resetUnder .modern) = .next t := ⟨_, rfl, rfl⟩
theorem witness_IndexIsWritten :
    ∃ t, writesIndex .original (.stRegs 1) = true ∧ exec (.stRegs 1) (State.resetUnder .original) = .next t := ⟨_, rfl, rfl⟩
theorem witness_StepsNeverTick :
    decodeWord (fetchWord (start .original 0x00E0)) = .ok .cls ∧ (seen (step (start .original 0x00E0)) (·.pc)).isSome = true := by
  decide
theorem witness_InstructionsWriteOnly : ∃ t, (3 : Reg) ∉ regsWritten (.ldRegs 2) ∧ exec (.ldRegs 2) State.reset = .next t :=
  ⟨_, by decide, rfl⟩
theorem witness_VfIsZeroOrOne : ∃ t, writesFlag (.addReg 15 15) = true ∧ exec (.addReg 15 15) State.reset = .next t := ⟨_, rfl, rfl⟩
theorem witness_AluFamily : isAlu (.rnd 3 0xFF#8) = true ∧ isAlu (.ldImm 15 0#8) = true := by decide
theorem witness_Call_first_slot : State.reset.sp.val = (0 : Fin 16).val := rfl
theorem witness_Call_last_slot : ({ State.reset with sp := 15 } : State).sp.val = (15 : Fin 16).val := rfl
theorem witness_Call_full : ({ State.reset with sp := 16 } : State).sp.val = 16 := rfl
theorem witness_Ret_first_slot : ({ State.reset with sp := 1 } : State).sp.val = (0 : Fin 16).val + 1 := rfl
theorem witness_Ret_last_slot : ({ State.reset with sp := 16 } : State).sp.val = (15 : Fin 16).val + 1 := rfl
theorem witness_Ret_empty : State.reset.sp.val = 0 := rfl
theorem witness_SkipsOnRegisters_illegal :
    (0x5AB1#16 &&& 0xF000#16) = 0x5000#16 ∧ (0x5AB1#16 &&& 0x000F#16) ≠ 0#16 ∧ (0x9ABF#16 &&& 0xF000#16) = 0x9000#16 := by decide
theorem witness_ProfileChanges_load : (seen (load [] [0x12#8] .modern State.reset) (·.profile)).isSome = true := by decide +kernel
theorem witness_JumpWithOffset_profiles :
    (State.resetUnder .original).profile = .original ∧ (State.resetUnder .modern).profile = .modern ∧
    (0xF : Reg).val = (0xFFF#12).toNat / 256 ∧ (0 : Reg).val = (0x0FF#12).toNat / 256 := by decide
theorem witness_Sys : (0x0123#16 &&& 0xF000#16) = 0x0000#16 ∧ 0x0123#16 ≠ 0x00E0#16 ∧ 0x0123#16 ≠ 0x00EE#16 := by decide
theorem witness_Shifts :
    ((State.resetUnder .original).profile = .original ∧ (2 : Reg) = 2) ∧
    ((State.resetUnder .modern).profile = .modern ∧ (1 : Reg) = 1) ∧ (1 : Reg) ≠ Reg.flag := by decide
theorem witness_StepWith_not_rnd : decodeWord (fetchWord (start .original 0x00E0)) = .ok .cls := by decide
/-- A waiting state with an RND at pc, which a STEP does not fetch. -/
theorem witness_StepWith_waiting_at_rnd :
    ({ start .original 0xC30F with wait := .awaitingKey 3 } : State).wait ≠ .running ∧
    decodeWord (fetchWord { start .original 0xC30F with wait := .awaitingKey 3 }) = .ok (.rnd 3 0x0F#8) := by decide
theorem witness_StepWith_rnd :
    (start .original 0xC30F).wait = .running ∧ decodeWord (fetchWord (start .original 0xC30F)) = .ok (.rnd 3 0x0F#8) := by decide
theorem witness_StepWith_step : ∃ t, step (start .original 0x00E0) = .next t := ⟨_, rfl⟩
/-- Block transfers: the first and the last register of the block, under both profiles. -/
theorem witness_Blocks :
    (0 : Reg) ≤ 0 ∧ (15 : Reg) ≤ 15 ∧ (State.resetUnder .original).profile = .original ∧
    (State.resetUnder .modern).profile = .modern := by decide
/-- A sprite of one bit over the pixel (0, 0), and a pixel beside it that the sprite does not cover. -/
theorem witness_Draw_covers :
    spriteCovers (State.reset.storeBytes 0 [0x80#8]) 0 1 1 0 0 ∧ ¬ spriteCovers (State.reset.storeBytes 0 [0x80#8]) 0 1 1 0 1 := by
  unfold spriteCovers; decide
theorem witness_Draw_lit : (Screen.clear.setPixel 0 0 true).pixel 0 0 = true ∧ Screen.clear.pixel 0 0 = false := by decide
theorem witness_DrawingTwice : (0 : Reg) ≠ Reg.flag ∧ (1 : Reg) ≠ Reg.flag := by decide
theorem witness_KeySkips : (5 : Key).val = ((State.reset.setReg 2 0x15#8).reg 2).toNat % 16 := by decide
theorem witness_Waiting_none :
    ({ State.reset with wait := .awaitingKey 3 } : State).wait = .awaitingKey 3 ∧
    ∀ k : Key, State.reset.key[k.val] = true → State.reset.keyPrev[k.val] = true := by decide
theorem witness_Waiting_rises :
    (setKey 15 true State.reset).key[15] = true ∧ (setKey 15 true State.reset).keyPrev[15] = false ∧
    ∀ j : Key, j < 15 → (setKey 15 true State.reset).key[j.val] = true → (setKey 15 true State.reset).keyPrev[j.val] = true := by
  decide
/-- A STEP that returns `Ok(awaiting = true)`, one that returns false, and one that faults. -/
theorem witness_Observations_awaiting :
    stepAwaiting 0#8 (start .original 0xF30A) = some true ∧ stepAwaiting 0#8 (start .original 0x00E0) = some false ∧
    stepAwaiting 0#8 (start .original 0x00EE) = none := by decide
theorem witness_NoReaderOfSound : ∀ x, Instr.cls ≠ .ldStVx x := by simp

end Sys2Proof.Tests
end

/-! PROOFS. The profile: what keeps it, what does not depend on it, and that each of the five instructions which read it does
(00_scope.md R2, 10_state.md R37). -/
namespace Sys2Proof.Machine

/-! Nothing but LOAD writes the profile. -/

theorem exec_profile {i : Instr} {s t : State} (h : exec i s = .next t) : t.profile = s.profile := by
  rcases exec_eq_next h with ⟨_, -, _, rfl⟩ | ⟨-, _, rfl⟩ | ⟨hstack, hsys⟩
  · rfl
  · rfl
  · cases i
    case call | ret => cases hstack
    case sys nnn => exact absurd rfl (hsys nnn)
    case stRegs | ldRegs => cases h; exact State.afterBlock_profile _ _
    all_goals cases h; rfl

theorem waitingStep_profile (x : Reg) (s : State) : (waitingStep x s).profile = s.profile := by
  cases hk : s.firstRising with
  | none => rw [waitingStep_none hk]; rfl
  | some k => rw [waitingStep_some hk]; rfl

theorem step_profile {s t : State} (h : step s = .next t) : t.profile = s.profile := by
  rcases step_eq_next h with ⟨x, -, rfl⟩ | ⟨-, i, -, hexec⟩
  · exact waitingStep_profile x s
  · exact exec_profile hexec

theorem load_profile {bg : Memory} {rom : List Byte} {p : Profile} {s t : State} (h : load bg rom p s = .next t) :
    t.profile = p := by
  rcases Nat.lt_or_ge 3584 rom.length with hlong | hshort
  · rw [load_long bg p s hlong] at h; cases h
  · rw [load_short bg p s hshort] at h; cases h; rfl

/-! What does not read the profile does the same under any. -/

theorem waitingStep_withProfile (x : Reg) (s : State) (p : Profile) :
    waitingStep x (s.withProfile p) = (waitingStep x s).withProfile p := by
  cases hk : s.firstRising with
  | none =>
    have hk' : (s.withProfile p).firstRising = none := hk
    rw [waitingStep_none hk, waitingStep_none hk']; rfl
  | some k =>
    have hk' : (s.withProfile p).firstRising = some k := hk
    rw [waitingStep_some hk, waitingStep_some hk']; rfl

theorem exec_call_withProfile (nnn : Addr) (s : State) (p : Profile) :
    exec (.call nnn) (s.withProfile p) = onNext (·.withProfile p) (exec (.call nnn) s) := by
  rcases Nat.lt_or_ge s.sp.val 16 with hfree | hfull
  · rw [exec_call_push nnn s hfree, exec_call_push nnn (s.withProfile p) hfree]; rfl
  · have hfull : s.sp.val = 16 := by have := s.sp.isLt; omega
    rw [exec_call_full nnn s hfull, exec_call_full nnn (s.withProfile p) hfull]; rfl

theorem exec_ret_withProfile (s : State) (p : Profile) :
    exec .ret (s.withProfile p) = onNext (·.withProfile p) (exec .ret s) := by
  rcases Nat.eq_zero_or_pos s.sp.val with hempty | hlive
  · rw [exec_ret_empty s hempty, exec_ret_empty (s.withProfile p) hempty]; rfl
  · rw [exec_ret_pop s hlive, exec_ret_pop (s.withProfile p) hlive]; rfl

/-- Of the instructions that do not read the profile only CALL and RET branch, on `sp`; each other one is one composition of state
operations that neither read nor write the field. -/
theorem exec_withProfile {i : Instr} (hi : readsProfile i = false) (s : State) (p : Profile) :
    exec i (s.withProfile p) = onNext (·.withProfile p) (exec i s) := by
  cases i
  case shr | shl | jpV0 | stRegs | ldRegs => cases hi
  case call nnn => exact exec_call_withProfile nnn s p
  case ret => exact exec_ret_withProfile s p
  all_goals rfl

/-! Each of the five that read the profile differs under the two. -/

/-- V1 is 2 and every other register 0, so that V0 and V1 tell the profiles' operands apart. -/
def profileWitness : State := State.reset.setReg 1 2#8

theorem shr_reads_profile : ∃ s t u : State, exec (.shr 0 1) (s.withProfile .original) = .next t ∧
    exec (.shr 0 1) (s.withProfile .modern) = .next u ∧ t.reg 0 ≠ u.reg 0 :=
  ⟨profileWitness, _, _, exec_shr .., exec_shr .., by decide⟩

theorem shl_reads_profile : ∃ s t u : State, exec (.shl 0 1) (s.withProfile .original) = .next t ∧
    exec (.shl 0 1) (s.withProfile .modern) = .next u ∧ t.reg 0 ≠ u.reg 0 :=
  ⟨profileWitness, _, _, exec_shl .., exec_shl .., by decide⟩

theorem jpV0_reads_profile : ∃ s t u : State, exec (.jpV0 0x100#12) (s.withProfile .original) = .next t ∧
    exec (.jpV0 0x100#12) (s.withProfile .modern) = .next u ∧ t.pc ≠ u.pc :=
  ⟨profileWitness, _, _, exec_jpV0 .., exec_jpV0 .., by decide⟩

/-- I moves by 1 to 16 and then drops its multiples of 4096, so it never ends where it was, even from above 4095. -/
theorem masked_add_block_ne (w : Word) (x : Reg) : (w + BitVec.ofNat 16 (x.val + 1)) &&& 0x0FFF#16 ≠ w := by
  intro heq
  have hnat := congrArg BitVec.toNat heq
  rw [masked_toNat, BitVec.toNat_add, BitVec.toNat_ofNat] at hnat
  have := x.isLt
  omega

/-- From equal I, a block transfer leaves a different I under the two profiles (42_index_memory.md R175). -/
theorem afterBlock_i_ne {a b : State} (ha : a.profile = .original) (hb : b.profile = .modern) (hi : a.i = b.i) (x : Reg) :
    (a.afterBlock x).i ≠ (b.afterBlock x).i := by
  rw [State.afterBlock_i, State.afterBlock_i, if_pos ha, if_neg (by simp [hb]), hi]
  exact masked_add_block_ne b.i x

theorem stRegs_reads_profile (s : State) (x : Reg) : ∃ t u, exec (.stRegs x) (s.withProfile .original) = .next t ∧
    exec (.stRegs x) (s.withProfile .modern) = .next u ∧ t.i ≠ u.i := by
  refine ⟨_, _, exec_stRegs .., exec_stRegs .., ?_⟩
  rw [State.advance_i, State.advance_i]
  apply afterBlock_i_ne <;> rfl

theorem ldRegs_reads_profile (s : State) (x : Reg) : ∃ t u, exec (.ldRegs x) (s.withProfile .original) = .next t ∧
    exec (.ldRegs x) (s.withProfile .modern) = .next u ∧ t.i ≠ u.i := by
  refine ⟨_, _, exec_ldRegs .., exec_ldRegs .., ?_⟩
  rw [State.advance_i, State.advance_i]
  apply afterBlock_i_ne <;> rfl

/-- Settles O19: what does not read the profile commutes with renaming it, and each of the five that do has a state where the two
profiles part. -/
theorem profileChangesOnlyThreeBehaviours : Obligations.ProfileChangesOnlyThreeBehaviours :=
  ⟨fun p => by cases p <;> simp,
    fun _ _ => step_profile,
    fun _ _ _ => ⟨rfl, rfl⟩,
    fun _ _ _ _ _ => load_profile,
    fun s p x _ _ => ⟨waitingStep_withProfile x s p, rfl, rfl⟩,
    fun _ s p hi => exec_withProfile hi s p,
    shr_reads_profile, shl_reads_profile, jpV0_reads_profile, stRegs_reads_profile, ldRegs_reads_profile⟩

end Sys2Proof.Machine

/-! PROOFS. Byte reads and writes reach memory through the address mod 4096 (20_memory.md R61). -/
namespace Sys2Proof.Machine

/-- Settles O9: a write is a `put` at the address mod 4096 and a read looks up the address mod 4096, so both parts are the read laws of
`Memory.cellAt` behind `translate`. -/
theorem memReadAfterMemWrite : Obligations.MemReadAfterMemWrite :=
  ⟨memRead_memWrite, fun m a => (memRead_translate m a).symm⟩

end Sys2Proof.Machine

/-! PROOFS. Control transfer: which opcodes select the jump, CALL, RET and the skips on an immediate, where each leaves pc, and that each
changes nothing else but the stack of CALL and RET (40_control_flow.md R122 to R126). -/
namespace Sys2Proof.Machine

/-! What the opcode table's masks select. -/

/-- A row whose mask is the major nibble alone, from the decoder's answer on that major opcode (30_encoding.md R95). -/
theorem selects_of_major {pattern : Word} {f : Word → Instr}
    (h : ∀ op, major op = major pattern → decodeWord op = .ok (f op)) : Selects 0xF000#16 pattern f :=
  fun op hop => h op (major_of_mask hop rfl)

/-- A row that fixes all 16 bits selects one opcode (30_encoding.md R96). -/
theorem selects_of_opcode {pattern : Word} {f : Word → Instr} (h : decodeWord pattern = .ok (f pattern)) :
    Selects 0xFFFF#16 pattern f := by
  intro op hop
  have heq : op = pattern := BitVec.and_allOnes.symm.trans hop
  rw [heq, h]

theorem selects_jp : Selects 0xF000#16 0x1000#16 (fun op => .jp (opNnn op)) :=
  selects_of_major fun op (hop : major op = 0x1) => by simp only [decodeWord, hop, fieldNnn_eq]

theorem selects_call : Selects 0xF000#16 0x2000#16 (fun op => .call (opNnn op)) :=
  selects_of_major fun op (hop : major op = 0x2) => by simp only [decodeWord, hop, fieldNnn_eq]

theorem selects_seImm : Selects 0xF000#16 0x3000#16 (fun op => .seImm (opX op) (opNn op)) :=
  selects_of_major fun op (hop : major op = 0x3) => by simp only [decodeWord, hop, fieldX_eq, fieldNn_eq]

theorem selects_sneImm : Selects 0xF000#16 0x4000#16 (fun op => .sneImm (opX op) (opNn op)) :=
  selects_of_major fun op (hop : major op = 0x4) => by simp only [decodeWord, hop, fieldX_eq, fieldNn_eq]

theorem selects_ret : Selects 0xFFFF#16 0x00EE#16 (fun _ => .ret) := selects_of_opcode (by decide)

/-! The values pc takes, in plain arithmetic. -/

@[simp] theorem addrOperand_toNat (nnn : Addr) : (addrOperand nnn).toNat = nnn.toNat :=
  BitVec.toNat_setWidth_of_le (by decide)

theorem State.next_toNat (s : State) : s.next.toNat = (s.pc.toNat + 2) % 65536 := BitVec.toNat_add ..

/-- The one pc write of a skip (10_state.md R25). -/
theorem State.skipIf_pc_toNat (s : State) (taken : Bool) :
    (s.skipIf taken).pc.toNat = (s.pc.toNat + if taken then 4 else 2) % 65536 := by
  cases taken <;> exact BitVec.toNat_add ..

/-! The frames. -/

/-- Writing pc changes no other piece. -/
theorem unchanged_setPc (written : Part → Prop) (s : State) (w : Word) : Unchanged written s (s.setPc w) := by
  intro p _
  cases p <;> rfl

/-- A skip only writes pc. -/
theorem unchanged_skipIf (written : Part → Prop) (s : State) (taken : Bool) : Unchanged written s (s.skipIf taken) :=
  unchanged_setPc written s _

/-- CALL in a state whose first free slot is `j`: what it leaves in the slot, in sp and in pc, and its frame (R124). -/
theorem exec_call_slot (nnn : Addr) (s : State) (j : Fin 16) (hsp : s.sp.val = j.val) :
    ∃ t, exec (.call nnn) s = .next t ∧ t.stack[j.val] = s.next ∧ t.sp.val = s.sp.val + 1 ∧ t.pc = addrOperand nnn ∧
      Unchanged (· ∈ [.depth, .slot j]) s t := by
  have hfree : s.sp.val < 16 := by omega
  obtain rfl : j = ⟨s.sp.val, hfree⟩ := Fin.ext hsp.symm
  refine ⟨_, exec_call_push nnn s hfree, Vector.getElem_set_self .., rfl, rfl, ?_⟩
  intro p hp
  cases p
  case depth => simp at hp
  case slot k =>
    have hne : s.sp.val ≠ k.val := fun heq => hp (by simp [heq])
    exact Vector.getElem_set_ne hfree k.isLt hne
  all_goals rfl

/-- RET in a state whose newest entry is in slot `j`: the entry goes to pc, and only the depth is written beside it (R122). -/
theorem exec_ret_slot (s : State) (j : Fin 16) (hsp : s.sp.val = j.val + 1) :
    ∃ t, exec .ret s = .next t ∧ t.pc = s.stack[j.val] ∧ t.sp.val = j.val ∧ Unchanged (· = .depth) s t := by
  have hj : s.sp.val - 1 = j.val := by omega
  refine ⟨_, exec_ret_pop s (by omega), by simp only [hj], hj, ?_⟩
  intro p hp
  cases p
  case depth => exact absurd rfl hp
  all_goals rfl

/-- Settles O28: a jump is one write of pc, with the address field zero-extended. -/
theorem jumpSetsPcToItsAddress : Obligations.JumpSetsPcToItsAddress :=
  ⟨selects_jp, fun nnn s => ⟨_, exec_jp nnn s, addrOperand_toNat nnn, unchanged_setPc _ s _⟩⟩

/-- Settles O29: with a free slot CALL is the push of `next` and the jump; with 16 entries the push has no state. -/
theorem callPushesNextAndJumps : Obligations.CallPushesNextAndJumps := by
  refine ⟨selects_call, fun nnn s j hsp => ?_, exec_call_full⟩
  obtain ⟨t, hexec, hslot, hdepth, hpc, hframe⟩ := exec_call_slot nnn s j hsp
  exact ⟨t, hexec, by rw [hslot, State.next_toNat], hdepth, by rw [hpc, addrOperand_toNat], hframe⟩

/-- Settles O30: with a live entry RET is the pop into pc; with none the pop has no entry. -/
theorem retPopsIntoPc : Obligations.RetPopsIntoPc := ⟨selects_ret, exec_ret_slot, exec_ret_empty⟩

/-- Settles O32: both are `skipIf`, on the comparison and on its negation. -/
theorem skipsOnImmediateMovePcByFourOrTwo : Obligations.SkipsOnImmediateMovePcByFourOrTwo := by
  refine ⟨selects_seImm, selects_sneImm, fun x nn s => ⟨_, exec_seImm x nn s, ?_, unchanged_skipIf _ s _⟩,
    fun x nn s => ⟨_, exec_sneImm x nn s, ?_, unchanged_skipIf _ s _⟩⟩
  · simp only [State.skipIf_pc_toNat, beq_iff_eq]
  · simp only [State.skipIf_pc_toNat, bne_iff_ne, ne_eq, ite_not]

end Sys2Proof.Machine

/-! PROOFS. Register load, arithmetic and logic: which opcodes select LD Vx,nn, ADD Vx,nn and ADD Vx,Vy, what one write of V[x], alone or with
VF after it, leaves in each register, and that pc goes to `next` and nothing else changes (41_alu.md R140 to R142, R147, R155). -/
namespace Sys2Proof.Machine

/-! What the opcode table's masks select. -/

/-- A row whose mask is the major nibble and the low nibble, from the decoder's answer on those two (30_encoding.md R97, R100). -/
theorem selects_of_major_fieldN {pattern : Word} {f : Word → Instr}
    (h : ∀ op, major op = major pattern → (fieldN op).val = (fieldN pattern).val → decodeWord op = .ok (f op)) :
    Selects 0xF00F#16 pattern f :=
  fun op hop => h op (major_of_mask hop rfl) (congrArg Fin.val (fieldN_of_mask hop rfl))

theorem selects_ldImm : Selects 0xF000#16 0x6000#16 (fun op => .ldImm (opX op) (opNn op)) :=
  selects_of_major fun op (hop : major op = 0x6) => by simp only [decodeWord, hop, fieldX_eq, fieldNn_eq]

theorem selects_addImm : Selects 0xF000#16 0x7000#16 (fun op => .addImm (opX op) (opNn op)) :=
  selects_of_major fun op (hop : major op = 0x7) => by simp only [decodeWord, hop, fieldX_eq, fieldNn_eq]

theorem selects_addReg : Selects 0xF00F#16 0x8004#16 (fun op => .addReg (opX op) (opY op)) :=
  selects_of_major_fieldN fun op (hop : major op = 0x8) (hn : (fieldN op).val = 0x4) => by
    simp only [decodeWord, hop, decodeAlu, hn, fieldX_eq, fieldY_eq]

/-! The values pc, the destination and VF take. -/

theorem State.advance_pc_toNat (s : State) : s.advance.pc.toNat = (s.pc.toNat + 2) % 65536 := s.next_toNat

@[simp] theorem State.reg_advance (s : State) (r : Reg) : s.advance.reg r = s.reg r := rfl

@[simp] theorem flagByte_toNat (c : Bool) : (flagByte c).toNat = if c then 1 else 0 := by
  cases c <;> rfl

/-- The destination holds the result, unless the flag was written over it (41_alu.md R155). -/
theorem State.reg_setRegFlag_dest (s : State) {x : Reg} (hx : x ≠ Reg.flag) (b : Byte) (c : Bool) :
    (s.setRegFlag x b c).reg x = b := by
  rw [State.reg_setRegFlag, if_neg hx, if_pos rfl]

@[simp] theorem State.reg_setRegFlag_flag (s : State) (x : Reg) (b : Byte) (c : Bool) :
    (s.setRegFlag x b c).reg Reg.flag = flagByte c := by
  rw [State.reg_setRegFlag, if_pos rfl]

/-! The frames. -/

/-- The end of an instruction that writes V[x] and no flag changes no other piece (41_alu.md R140). -/
theorem unchanged_setReg_advance (s : State) (x : Reg) (b : Byte) : Unchanged (· = .reg x) s (s.setReg x b).advance := by
  intro p hp
  cases p
  case reg r =>
    have hne : r ≠ x := fun heq => hp (by rw [heq])
    exact (State.reg_setReg s x r b).trans (if_neg hne)
  all_goals rfl

/-- The end of an instruction that writes V[x] and then VF changes no other piece (41_alu.md R140, R155). -/
theorem unchanged_setRegFlag_advance (s : State) (x : Reg) (b : Byte) (c : Bool) :
    Unchanged (· ∈ [.reg x, .reg Reg.flag]) s (s.setRegFlag x b c).advance := by
  intro p hp
  cases p
  case reg r =>
    have hflag : r ≠ Reg.flag := fun heq => hp (by simp [heq])
    have hne : r ≠ x := fun heq => hp (by simp [heq])
    exact (State.reg_setRegFlag s x r b c).trans ((if_neg hflag).trans (if_neg hne))
  all_goals rfl

/-- Settles O38: the sum and its carry come from the old operands; VF, written last, is read as the carry whatever the destination. -/
theorem addWritesSumThenCarry : Obligations.AddWritesSumThenCarry := by
  refine ⟨selects_addReg, fun x y s => ⟨_, exec_addReg x y s, fun hx => ?_, ?_, State.advance_pc_toNat _,
    unchanged_setRegFlag_advance s x _ _⟩⟩
  · rw [State.reg_advance, State.reg_setRegFlag_dest s hx, BitVec.toNat_add]
  · simp only [State.reg_advance, State.reg_setRegFlag_flag, flagByte_toNat, carry, decide_eq_true_eq, gt_iff_lt]

/-- Settles O36: both end in one write of V[x] and the move of pc, with no flag. -/
theorem immediateLoadAndAddWriteOneRegister : Obligations.ImmediateLoadAndAddWriteOneRegister := by
  refine ⟨selects_ldImm, selects_addImm,
    fun x nn s => ⟨_, exec_ldImm x nn s, State.reg_setReg_self s x nn, State.advance_pc_toNat _, unchanged_setReg_advance s x nn⟩,
    fun x nn s => ⟨_, exec_addImm x nn s, ?_, State.advance_pc_toNat _, unchanged_setReg_advance s x _⟩⟩
  rw [State.reg_advance, State.reg_setReg_self, BitVec.toNat_add]

end Sys2Proof.Machine

/-! PROOFS. Index and memory: which opcodes select LD B, what a store of a list of bytes leaves in memory and that it changes nothing else, and
the decimal digits LD B stores (42_index_memory.md R174). -/
namespace Sys2Proof.Machine

/-! What the opcode table's masks select. -/

/-- A row whose mask is the major nibble and the low byte, from the decoder's answer on those two (30_encoding.md R98, R99). -/
theorem selects_of_major_fieldNn {pattern : Word} {f : Word → Instr}
    (h : ∀ op, major op = major pattern → (fieldNn op).toNat = (fieldNn pattern).toNat → decodeWord op = .ok (f op)) :
    Selects 0xF0FF#16 pattern f :=
  fun op hop => h op (major_of_mask hop rfl) (congrArg BitVec.toNat (fieldNn_of_mask hop rfl))

theorem selects_ldB : Selects 0xF0FF#16 0xF033#16 (fun op => .ldB (opX op)) :=
  selects_of_major_fieldNn fun op (hop : major op = 0xF) (hnn : (fieldNn op).toNat = 0x33) => by
    simp only [decodeWord, hop, decodeMisc, hnn, fieldX_eq]

/-! The frame. -/

/-- The end of an instruction that stores a list of bytes changes only the cells the bytes' addresses reach (20_memory.md R68). -/
theorem unchanged_storeBytes_advance (s : State) (base : Nat) (bs : List Byte) :
    Unchanged (fun p => ∃ k < bs.length, p = .byte (cellOf (base + k))) s (s.storeBytes base bs).advance := by
  intro p hp
  cases p
  case byte a =>
    refine memRead_memWriteBytes_other bs s.mem base a.val fun k hk heq => hp ⟨k, hk, ?_⟩
    have ha : a.val % 4096 = a.val := Nat.mod_eq_of_lt a.isLt
    exact congrArg Part.byte (Fin.ext (ha.symm.trans heq))
  all_goals rfl

/-! The decimal digits. -/

theorem decimalDigits_map_toNat (b : Byte) :
    (decimalDigits b).map BitVec.toNat = [b.toNat / 100, b.toNat / 10 % 10, b.toNat % 10] := by
  have hb := b.isLt
  simp only [decimalDigits, List.map_cons, List.map_nil, BitVec.toNat_ofNat, List.cons.injEq, and_true]
  omega

/-- The k-th digit is read back at the k-th address, wrapped or not. -/
theorem memRead_memWriteBytes_decimalDigits (m : Memory) (base : Nat) (b : Byte) (k : Nat) (hk : k < 3) :
    (memRead (memWriteBytes m base (decimalDigits b)) (base + k)).toNat =
      [b.toNat / 100, b.toNat / 10 % 10, b.toNat % 10][k] := by
  have hlen : (decimalDigits b).length = 3 := rfl
  rw [memRead_memWriteBytes _ m base k (by omega) (by omega)]
  simp only [← decimalDigits_map_toNat, List.getElem_map]

/-- Settles O45: the store leaves the three digits at the three addresses and every other piece alone; pc then moves to `next`. -/
theorem bcdStoresThreeDigits : Obligations.BcdStoresThreeDigits := by
  refine ⟨selects_ldB, fun x s => ?_⟩
  have hdigit := memRead_memWriteBytes_decimalDigits s.mem s.i.toNat (s.reg x)
  refine ⟨_, exec_ldB x s, hdigit 0 (by decide), hdigit 1 (by decide), hdigit 2 (by decide), State.advance_pc_toNat _, ?_⟩
  intro p hp
  refine unchanged_storeBytes_advance s _ _ p ?_
  rintro ⟨k, hk, rfl⟩
  have hk : k < 3 := hk
  interval_cases k <;> simp at hp

end Sys2Proof.Machine

/-! PROOFS. Display: which opcode selects CLS, that an instruction that ends in a new screen changes nothing else but pc, and that the cleared
screen has no lit pixel (43_display.md R190, R191). -/
namespace Sys2Proof.Machine

theorem selects_cls : Selects 0xFFFF#16 0x00E0#16 (fun _ => .cls) := selects_of_opcode (by decide)

/-- The end of an instruction that replaces the screen and writes no register changes only pixels. -/
theorem unchanged_fb_advance (s : State) (fb : Screen) : Unchanged (·.isPixel) s ({ s with fb := fb } : State).advance := by
  intro p hp
  cases p
  case pixel row col => exact absurd trivial hp
  all_goals rfl

/-- Settles O48: CLS replaces the screen by the cleared one, whose every pixel reads unlit, and moves pc to `next`. -/
theorem clsClearsEveryPixel : Obligations.ClsClearsEveryPixel :=
  ⟨selects_cls, fun s => ⟨_, exec_cls s, Screen.pixel_clear, State.advance_pc_toNat _, unchanged_fb_advance s Screen.clear⟩⟩

end Sys2Proof.Machine

/-! PROOFS. LOAD, TICK and the observations: the outcome of a LOAD by its ROM's length, one count down of each timer, and what SOUND and
AWAITING read (60_exceptions.md R224, R236, R237, 44_keypad_timers.md R206). -/
namespace Sys2Proof.Machine

/-- Settles O13: a LOAD succeeds up to 3584 bytes and is the fault above, and no outcome is both. -/
theorem romTooLargeExactlyAbove3584 : Obligations.RomTooLargeExactlyAbove3584 := by
  intro bg rom p s
  rcases Nat.lt_or_ge 3584 rom.length with hlong | hshort
  · simp only [load_long bg p s hlong, reduceCtorEq, exists_false, true_iff, false_iff]
    omega
  · simp only [load_short bg p s hshort, reduceCtorEq, Host.Outcome.next.injEq, exists_eq', true_iff, false_iff]
    omega

theorem tickDown_toNat (b : Byte) : (tickDown b).toNat = b.toNat - 1 := by
  unfold tickDown
  split
  case isTrue hzero => rw [hzero]; rfl
  case isFalse hne => bv_omega

/-- TICK changes no piece but the timers, in a waiting state too (60_exceptions.md R236). -/
theorem unchanged_tick (s : State) : Unchanged (· ∈ [.delay, .sound]) s (tick s) := by
  intro p hp
  cases p
  case delay | sound => simp at hp
  all_goals rfl

/-- Settles O56: TICK writes the timers only, each counted down by `tickDown`. -/
theorem tickCountsBothTimersDownToZero : Obligations.TickCountsBothTimersDownToZero :=
  fun s => ⟨rfl, tickDown_toNat s.dt, tickDown_toNat s.st, rfl, unchanged_tick s⟩

theorem sound_eq_true_iff (s : State) : sound s = true ↔ 0 < s.st.toNat := decide_eq_true_iff

theorem awaiting_eq_true_iff (s : State) : awaiting s = true ↔ ∃ x, s.wait = .awaitingKey x := by
  unfold awaiting
  cases s.wait with
  | running => simp
  | awaitingKey x => simp

/-- Only a STEP to a next state has an `awaiting` (44_keypad_timers.md R206). -/
theorem stepAwaiting_eq_some_iff (r : Byte) (s : State) (b : Bool) :
    stepAwaiting r s = some b ↔ ∃ t, stepWith r s = .next t ∧ awaiting t = b := by
  constructor
  · intro h
    unfold stepAwaiting at h
    split at h
    · next t ht => exact ⟨t, ht, Option.some.inj h⟩
    · cases h
    · cases h
  · rintro ⟨t, ht, rfl⟩
    exact stepAwaiting_next ht

/-- Settles O58: the three observations, each by its own reading. -/
theorem observationsReadTheirRegisters : Obligations.ObservationsReadTheirRegisters :=
  ⟨sound_eq_true_iff, awaiting_eq_true_iff, stepAwaiting_eq_some_iff⟩

end Sys2Proof.Machine

/-! PROOFS. The decoder and the encoder are inverse, part by part of the opcode map, and the illegal set is what decodes to SYS or to
nothing (30_encoding.md R91 to R101). -/
namespace Sys2Proof.Machine

/-! An opcode put together again from its fields. -/

theorem formA_fields {op : Word} {k : BitVec 4} (hmajor : major op = k.toNat) : formA k (fieldNnn op) = op := by
  apply BitVec.eq_of_toNat_eq
  rw [formA_toNat, fieldNnn_toNat, ← hmajor, major_eq]
  omega

theorem formXi_fields {op : Word} {k : BitVec 4} {nn : Byte} (hmajor : major op = k.toNat)
    (hnn : (fieldNn op).toNat = nn.toNat) : formXi k (fieldX op) nn = op := by
  apply BitVec.eq_of_toNat_eq
  rw [formXi_toNat, fieldX_eq, opX, ← hnn, fieldNn_toNat, ← hmajor, major_eq]
  dsimp only
  omega

theorem formXy_fields {op : Word} {k n : BitVec 4} (hmajor : major op = k.toNat) (hn : (fieldN op).val = n.toNat) :
    formXy k (fieldX op) (fieldY op) n = op := by
  apply BitVec.eq_of_toNat_eq
  rw [formXy_toNat, fieldX_eq, fieldY_eq, opX, opY, ← hn, fieldN_eq, opN, ← hmajor, major_eq]
  dsimp only
  omega

/-! Decode of encode. -/

/-- Decoding reads each instruction back from its opcode: the fields of the encoder's form are the operands, and SYS is left only the
opcodes that the exact matches of major 0 do not take. -/
theorem decodeWord_encode {i : Instr} (hwf : WellFormed i = true) : decodeWord (encode i) = .ok i := by
  cases i
  case sys nnn =>
    simp only [WellFormed, Bool.and_eq_true, bne_iff_ne] at hwf
    have hne (c : Addr) (h : nnn ≠ c) : formA 0x0#4 nnn ≠ formA 0x0#4 c := fun heq => h (by
      rw [← fieldNnn_formA 0x0#4 nnn, heq, fieldNnn_formA])
    have hcls : formA 0x0#4 nnn ≠ 0x00E0#16 := hne 0x0E0#12 hwf.1
    have hret : formA 0x0#4 nnn ≠ 0x00EE#16 := hne 0x0EE#12 hwf.2
    simp [encode, decodeWord, decodeZero, hcls, hret]
  case cls | ret => decide
  case drw x y n =>
    have hn : fieldN (formXy 0xD#4 x y (nibble n)) = n := Fin.ext (by simp [nibble_toNat])
    simp [encode, decodeWord, hn]
  all_goals simp [encode, decodeWord, decodeXy0, decodeAlu, decodeKeypad, decodeMisc]

theorem decodeBytes_encodeBytes {i : Instr} (hwf : WellFormed i = true) (rest : List Byte) :
    decodeBytes (encodeBytes i ++ rest) = .ok (i, rest) := by
  simp [encodeBytes, decodeBytes, decodeWord_encode hwf]

/-- Settles O6: by word the case split of `decodeWord_encode`; by bytes the two bytes are the word again. -/
theorem decodeOfEncode : Obligations.DecodeOfEncode :=
  fun _ hwf => ⟨decodeWord_encode hwf, decodeBytes_encodeBytes hwf⟩

/-! What the decoder answers, part by part: an instruction whose opcode it is, or a rejection of an illegal opcode. -/

/-- `i` is a well-formed instruction and `op` is its opcode. -/
def Encodes (i : Instr) (op : Word) : Prop := WellFormed i = true ∧ encode i = op

/-- The answer fits the opcode: the instruction it encodes, or a rejection of an opcode of the illegal set. -/
def Answers (op : Word) : Decoded Instr → Prop
  | .ok i => Encodes i op
  | .unassigned _ => illegal op = true
  | .truncated => False

theorem fieldN_val (op : Word) : (fieldN op).val = op.toNat % 16 := by rw [fieldN_eq]; rfl

theorem major_lt (op : Word) : major op < 16 := (nibbleAt op 12).isLt

theorem decodeZero_answers {op : Word} (hmajor : major op = 0x0) : Answers op (decodeZero op) := by
  unfold decodeZero
  split_ifs with hcls hret
  · exact ⟨rfl, hcls.symm⟩
  · exact ⟨rfl, hret.symm⟩
  · have hop : formA 0x0#4 (fieldNnn op) = op := formA_fields hmajor
    refine ⟨?_, hop⟩
    simp only [WellFormed, Bool.and_eq_true, bne_iff_ne]
    exact ⟨fun heq => hcls (by rw [← hop, heq]; rfl), fun heq => hret (by rw [← hop, heq]; rfl)⟩

theorem decodeXy0_answers {op : Word} {i : Instr} (hmajor : major op = 0x5 ∨ major op = 0x9)
    (hi : (fieldN op).val = 0 → Encodes i op) : Answers op (decodeXy0 op i) := by
  unfold decodeXy0
  split_ifs with hn
  · exact hi hn
  · show illegal op = true
    rcases hmajor with hmajor | hmajor <;> simpa [illegal, ← major_eq, hmajor, ← fieldN_val] using hn

theorem decodeAlu_answers {op : Word} (hmajor : major op = 0x8) : Answers op (decodeAlu op) := by
  unfold decodeAlu
  split
  case h_10 =>
    have hlt := (fieldN op).isLt
    simp only [imp_false] at *
    simp only [Answers, illegal, ← major_eq, hmajor, ← fieldN_val]
    generalize (fieldN op).val = n at *
    interval_cases n <;> simp_all
  all_goals exact ⟨rfl, formXy_fields hmajor ‹_›⟩

theorem decodeKeypad_answers {op : Word} (hmajor : major op = 0xE) : Answers op (decodeKeypad op) := by
  unfold decodeKeypad
  split
  case h_3 => simp_all [Answers, illegal, ← major_eq, ← fieldNn_toNat]
  all_goals exact ⟨rfl, formXi_fields hmajor ‹_›⟩

theorem decodeMisc_answers {op : Word} (hmajor : major op = 0xF) : Answers op (decodeMisc op) := by
  unfold decodeMisc
  split
  case h_10 => simp_all [Answers, illegal, ← major_eq, ← fieldNn_toNat]
  all_goals exact ⟨rfl, formXi_fields hmajor ‹_›⟩

/-- By the major opcode: in most majors one form, in the others the part of the decoder that reads the minor opcode. -/
theorem decodeWord_answers (op : Word) : Answers op (decodeWord op) := by
  unfold decodeWord
  split
  case h_1 hmajor => exact decodeZero_answers hmajor
  case h_6 hmajor => exact decodeXy0_answers (Or.inl hmajor) fun hn => ⟨rfl, formXy_fields hmajor hn⟩
  case h_9 hmajor => exact decodeAlu_answers hmajor
  case h_10 hmajor => exact decodeXy0_answers (Or.inr hmajor) fun hn => ⟨rfl, formXy_fields hmajor hn⟩
  case h_14 hmajor => exact ⟨rfl, formXy_fields hmajor (nibble_toNat _).symm⟩
  case h_15 hmajor => exact decodeKeypad_answers hmajor
  case h_16 =>
    have hlt := major_lt op
    simp only [imp_false] at *
    have hmajor : major op = 0xF := by omega
    exact decodeMisc_answers hmajor
  case h_2 | h_3 | h_11 | h_12 => exact ⟨rfl, formA_fields ‹_›⟩
  all_goals exact ⟨rfl, formXi_fields ‹_› rfl⟩

theorem encodes_of_decodeWord {op : Word} {i : Instr} (h : decodeWord op = .ok i) : Encodes i op := by
  have := decodeWord_answers op
  rwa [h] at this

theorem illegal_of_unassigned {op op' : Word} (h : decodeWord op = .unassigned op') : illegal op = true := by
  have := decodeWord_answers op
  rwa [h] at this

/-- Settles O7: the parts of the decoder, put together by the major opcode. -/
theorem encodeOfDecode : Obligations.EncodeOfDecode := fun _ _ h => encodes_of_decodeWord h

/-! The illegal set: SYS, and what decodes to nothing. -/

/-- The instruction is SYS, which the map names and decision D5 makes illegal. -/
def isSys : Instr → Bool
  | .sys _ => true
  | _ => false

theorem isSys_eq_true {i : Instr} (h : isSys i = true) : ∃ nnn, i = .sys nnn := by
  cases i
  case sys nnn => exact ⟨nnn, rfl⟩
  all_goals cases h

/-- Of the opcodes of instructions, the illegal ones are those of SYS: the fields `illegal` tests are those of the encoder's form. -/
theorem illegal_encode {i : Instr} (hwf : WellFormed i = true) : illegal (encode i) = isSys i := by
  cases i
  case sys nnn =>
    simp only [WellFormed, Bool.and_eq_true, bne_iff_ne] at hwf
    have hcls : nnn.toNat ≠ 0x0E0 := by bv_omega
    have hret : nnn.toNat ≠ 0x0EE := by bv_omega
    have hmajor : nnn.toNat / 4096 = 0 := Nat.div_eq_of_lt nnn.isLt
    simp [encode, illegal, isSys, formA_toNat, hmajor, hcls, hret]
  case cls | ret => decide
  all_goals simp [encode, illegal, isSys, ← major_eq, ← fieldN_val, ← fieldNn_toNat]

theorem illegal_of_decodeWord {op : Word} {i : Instr} (h : decodeWord op = .ok i) : illegal op = isSys i := by
  obtain ⟨hwf, rfl⟩ := encodes_of_decodeWord h
  exact illegal_encode hwf

/-- An opcode outside the illegal set decodes to an instruction other than SYS (30_encoding.md R101). -/
theorem decodeWord_of_legal {op : Word} (h : illegal op = false) : ∃ i, decodeWord op = .ok i ∧ ∀ nnn, i ≠ .sys nnn := by
  cases hd : decodeWord op with
  | ok i =>
    rw [illegal_of_decodeWord hd] at h
    refine ⟨i, rfl, ?_⟩
    rintro nnn rfl
    cases h
  | unassigned op' => rw [illegal_of_unassigned hd] at h; cases h
  | truncated => exact absurd hd (decodeWord_ne_truncated op)

/-- Settles O5: each word is evaluated. -/
theorem wordsWrittenFromThePatternsDecode : Obligations.WordsWrittenFromThePatternsDecode := by
  unfold Obligations.WordsWrittenFromThePatternsDecode
  decide

end Sys2Proof.Machine

/-! PROOFS. The step by what it fetched, the three causes of its faults, and that TICK and SET_KEY leave what a fault depends on
(30_encoding.md R90, 60_exceptions.md R220 to R229). -/
namespace Sys2Proof.Machine

/-! The step, by WAIT and by what it decodes (30_encoding.md R90). -/

theorem step_of_decodes {s : State} {i : Instr} (hw : s.wait = .running) (hd : decodeWord (fetchWord s) = .ok i) :
    step s = exec i s := by
  simp only [step, hw, runOpcode, hd]

theorem step_of_rejects {s : State} (hw : s.wait = .running) (hd : ∀ i, decodeWord (fetchWord s) ≠ .ok i) :
    step s = .fault (.unknownOpcode s.pc (fetchWord s)) := by
  unfold step runOpcode
  rw [hw]
  cases hop : decodeWord (fetchWord s) with
  | ok i => exact absurd hop (hd i)
  | unassigned | truncated => rfl

theorem step_of_awaiting {s : State} {x : Reg} (hw : s.wait = .awaitingKey x) : step s = .next (waitingStep x s) := by
  simp only [step, hw]

/-- Settles O1: the three branches of the step. -/
theorem stepRunsTheDecodedInstruction : Obligations.StepRunsTheDecodedInstruction :=
  ⟨fun _ _ => step_of_awaiting, fun _ _ => step_of_decodes, fun _ => step_of_rejects⟩

/-- SYS reports the opcode that was fetched, which is its own. -/
theorem step_of_sys {s : State} {nnn : Addr} (hw : s.wait = .running) (hd : decodeWord (fetchWord s) = .ok (.sys nnn)) :
    step s = .fault (.unknownOpcode s.pc (fetchWord s)) := by
  rw [step_of_decodes hw hd, exec_sys, (encodes_of_decodeWord hd).2]

theorem step_of_illegal {s : State} (hw : s.wait = .running) (hill : illegal (fetchWord s) = true) :
    step s = .fault (.unknownOpcode s.pc (fetchWord s)) := by
  cases hd : decodeWord (fetchWord s) with
  | ok i =>
    rw [illegal_of_decodeWord hd] at hill
    obtain ⟨nnn, rfl⟩ := isSys_eq_true hill
    exact step_of_sys hw hd
  | unassigned | truncated => exact step_of_rejects hw (by simp [hd])

/-- A faulting step, by its three causes (60_exceptions.md R220). -/
theorem step_fault_cases {s : State} {f : Fault} (h : step s = .fault f) :
    s.wait = .running ∧
    ((illegal (fetchWord s) = true ∧ f = .unknownOpcode s.pc (fetchWord s)) ∨
     (∃ nnn, decodeWord (fetchWord s) = .ok (.call nnn) ∧ s.sp.val = 16 ∧ f = .stackOverflow) ∨
     (decodeWord (fetchWord s) = .ok .ret ∧ s.sp.val = 0 ∧ f = .stackUnderflow)) := by
  obtain ⟨hw, ⟨op, hd, hf⟩ | ⟨i, hd, hexec⟩⟩ := step_eq_fault h
  · exact ⟨hw, Or.inl ⟨illegal_of_unassigned hd, hf⟩⟩
  refine ⟨hw, ?_⟩
  rcases exec_eq_fault hexec with ⟨nnn, rfl, hf⟩ | ⟨nnn, rfl, hsp, hf⟩ | ⟨rfl, hsp, hf⟩
  · rw [(encodes_of_decodeWord hd).2] at hf
    exact Or.inl ⟨illegal_of_decodeWord hd, hf⟩
  · exact Or.inr (Or.inl ⟨nnn, hd, hsp, hf⟩)
  · exact Or.inr (Or.inr ⟨hd, hsp, hf⟩)

/-- Settles O8: the illegal opcodes are SYS and those that decode to nothing, and no other cause of a fault is `UnknownOpcode`. -/
theorem illegalOpcodesFaultAndOthersDecode : Obligations.IllegalOpcodesFaultAndOthersDecode := by
  refine ⟨fun _ => step_of_illegal, fun s a o h => ?_, fun _ => decodeWord_of_legal⟩
  obtain ⟨hw, ⟨hill, hf⟩ | ⟨_, _, _, hf⟩ | ⟨_, _, hf⟩⟩ := step_fault_cases h
  · cases hf; exact ⟨hw, hill, rfl, rfl⟩
  · cases hf
  · cases hf

theorem exec_ne_refused (i : Instr) (s : State) (r : Refusal) : exec i s ≠ .refused r := by
  cases i
  case call nnn =>
    rcases Nat.lt_or_ge s.sp.val 16 with hfree | hfull
    · rw [exec_call_push nnn s hfree]; nofun
    · rw [exec_call_full nnn s (by omega)]; nofun
  case ret =>
    rcases Nat.eq_zero_or_pos s.sp.val with hempty | hlive
    · rw [exec_ret_empty s hempty]; nofun
    · rw [exec_ret_pop s hlive]; nofun
  all_goals nofun

theorem step_ne_refused (s : State) (r : Refusal) : step s ≠ .refused r := by
  cases hw : s.wait with
  | awaitingKey x => rw [step_of_awaiting hw]; nofun
  | running =>
    by_cases hd : ∃ i, decodeWord (fetchWord s) = .ok i
    · obtain ⟨i, hi⟩ := hd
      rw [step_of_decodes hw hi]
      exact exec_ne_refused i s r
    · rw [step_of_rejects hw (not_exists.mp hd)]; nofun

/-- Settles O17: `step_fault_cases`, and no instruction is refused. -/
theorem stepFaultsOnlyAsTheSpecSays : Obligations.StepFaultsOnlyAsTheSpecSays :=
  ⟨fun _ _ => step_fault_cases, step_ne_refused⟩

/-! A fault depends on WAIT, pc, sp and memory only. -/

/-- The two states agree on what decides whether a step faults and with what information. -/
structure SameFaults (s t : State) : Prop where
  wait : t.wait = s.wait
  pc : t.pc = s.pc
  sp : t.sp = s.sp
  mem : t.mem = s.mem

theorem SameFaults.trans {s t u : State} (hst : SameFaults s t) (htu : SameFaults t u) : SameFaults s u :=
  ⟨htu.wait.trans hst.wait, htu.pc.trans hst.pc, htu.sp.trans hst.sp, htu.mem.trans hst.mem⟩

theorem SameFaults.fetchWord {s t : State} (h : SameFaults s t) : fetchWord t = fetchWord s := by
  simp only [Machine.fetchWord, State.load8, h.pc, h.mem]

theorem step_fault_of_sameFaults {s t : State} {f : Fault} (hst : SameFaults s t) (h : step s = .fault f) :
    step t = .fault f := by
  obtain ⟨hw, hcases⟩ := step_fault_cases h
  rw [← hst.fetchWord, ← hst.sp, ← hst.pc] at hcases
  have hw' : t.wait = .running := hst.wait.trans hw
  rcases hcases with ⟨hill, rfl⟩ | ⟨nnn, hd, hsp, rfl⟩ | ⟨hd, hsp, rfl⟩
  · exact step_of_illegal hw' hill
  · rw [step_of_decodes hw' hd]; exact exec_call_full nnn t hsp
  · rw [step_of_decodes hw' hd]; exact exec_ret_empty t hsp

/-- TICK and SET_KEY complete, and leave what a fault depends on. -/
theorem transact_event {e : Transaction} (he : e.isEvent) (s : State) : ∃ t, transact e s = .next t ∧ SameFaults s t := by
  cases e with
  | tick => exact ⟨_, rfl, rfl, rfl, rfl, rfl⟩
  | setKey k pressed => exact ⟨_, rfl, rfl, rfl, rfl, rfl⟩
  | load | step => exact absurd he id

theorem runHistory_events (ts : List Transaction) (hts : ∀ e ∈ ts, e.isEvent) (s : State) :
    ∃ t, runHistory ts s = .next t ∧ SameFaults s t := by
  induction ts generalizing s with
  | nil => exact ⟨s, rfl, rfl, rfl, rfl, rfl⟩
  | cons e ts ih =>
    obtain ⟨he, hts⟩ := List.forall_mem_cons.mp hts
    obtain ⟨u, hu, hsu⟩ := transact_event he s
    obtain ⟨t, ht, hut⟩ := ih hts u
    exact ⟨t, by simp only [runHistory, hu, ht], hsu.trans hut⟩

/-- Settles O18: no event touches what a fault depends on. -/
theorem faultRecursAfterTicksAndKeys : Obligations.FaultRecursAfterTicksAndKeys := by
  intro s f ts h hts
  obtain ⟨t, ht, hst⟩ := runHistory_events ts hts s
  exact ⟨t, ht, step_fault_of_sameFaults hst h⟩

end Sys2Proof.Machine

/-! PROOFS. What each instruction leaves alone: one frame for all of them, by the classes of `Safety`, then the statements that each
read one field of it, and the invariant (10_state.md R22 to R42, 20_memory.md R69, R75, 43_display.md R190). -/
namespace Sys2Proof.Machine

/-- What `exec i` from `s` to `t` leaves alone, by the class `i` belongs to. -/
structure Frame (i : Instr) (s t : State) : Prop where
  key : t.key = s.key
  stack : usesStack i = false → t.sp = s.sp ∧ t.stack = s.stack
  display : writesDisplay i = false → t.fb = s.fb
  memory : writesMemory i = false → t.mem = s.mem
  index : writesIndex s.profile i = false → t.i = s.i
  delay : (∀ x, i ≠ .ldDtVx x) → t.dt = s.dt
  sound : (∀ x, i ≠ .ldStVx x) → t.st = s.st

/-- In the modern profile a block transfer leaves I (42_index_memory.md R175). -/
theorem State.afterBlock_i_modern {s : State} (h : s.profile ≠ .original) (x : Reg) : (s.afterBlock x).i = s.i := by
  rw [State.afterBlock_i, if_neg h]

theorem exec_frame {i : Instr} {s t : State} (h : exec i s = .next t) : Frame i s t := by
  rcases exec_eq_next h with ⟨_, rfl, _, rfl⟩ | ⟨rfl, _, rfl⟩ | ⟨hstack, hsys⟩
  · exact ⟨rfl, nofun, fun _ => rfl, fun _ => rfl, fun _ => rfl, fun _ => rfl, fun _ => rfl⟩
  · exact ⟨rfl, nofun, fun _ => rfl, fun _ => rfl, fun _ => rfl, fun _ => rfl, fun _ => rfl⟩
  cases i
  case call | ret => cases hstack
  case sys nnn => exact absurd rfl (hsys nnn)
  case cls | drw =>
    cases h
    exact ⟨rfl, fun _ => ⟨rfl, rfl⟩, nofun, fun _ => rfl, fun _ => rfl, fun _ => rfl, fun _ => rfl⟩
  case ldB =>
    cases h
    exact ⟨rfl, fun _ => ⟨rfl, rfl⟩, fun _ => rfl, nofun, fun _ => rfl, fun _ => rfl, fun _ => rfl⟩
  case ldI | addI | ldF =>
    cases h
    exact ⟨rfl, fun _ => ⟨rfl, rfl⟩, fun _ => rfl, fun _ => rfl, nofun, fun _ => rfl, fun _ => rfl⟩
  case ldDtVx x =>
    cases h
    exact ⟨rfl, fun _ => ⟨rfl, rfl⟩, fun _ => rfl, fun _ => rfl, fun _ => rfl, fun hi => absurd rfl (hi x), fun _ => rfl⟩
  case ldStVx x =>
    cases h
    exact ⟨rfl, fun _ => ⟨rfl, rfl⟩, fun _ => rfl, fun _ => rfl, fun _ => rfl, fun _ => rfl, fun hi => absurd rfl (hi x)⟩
  case stRegs x =>
    cases h
    refine ⟨by simp, fun _ => ⟨by simp, by simp⟩, fun _ => by simp, nofun, fun hi => ?_, fun _ => by simp, fun _ => by simp⟩
    exact State.afterBlock_i_modern (by simpa [writesIndex] using hi) x
  case ldRegs x =>
    cases h
    refine ⟨by simp, fun _ => ⟨by simp, by simp⟩, fun _ => by simp, fun _ => by simp, fun hi => ?_, fun _ => by simp,
      fun _ => by simp⟩
    exact State.afterBlock_i_modern (by simpa [writesIndex] using hi) x
  all_goals
    cases h
    exact ⟨rfl, fun _ => ⟨rfl, rfl⟩, fun _ => rfl, fun _ => rfl, fun _ => rfl, fun _ => rfl, fun _ => rfl⟩

/-- What a waiting step leaves alone (44_keypad_timers.md R205). -/
structure WaitingFrame (s t : State) : Prop where
  i : t.i = s.i
  dt : t.dt = s.dt
  st : t.st = s.st
  fb : t.fb = s.fb
  key : t.key = s.key
  mem : t.mem = s.mem

theorem waitingStep_frame (x : Reg) (s : State) : WaitingFrame s (waitingStep x s) := by
  cases hk : s.firstRising with
  | none => rw [waitingStep_none hk]; exact ⟨rfl, rfl, rfl, rfl, rfl, rfl⟩
  | some k => rw [waitingStep_some hk]; exact ⟨rfl, rfl, rfl, rfl, rfl, rfl⟩

/-- Settles O20: the frame's field for the stack. -/
theorem onlyCallAndRetTouchTheStack : Obligations.OnlyCallAndRetTouchTheStack :=
  fun _ _ _ hi h => (exec_frame h).stack hi

/-- Settles O21: the frames' fields for the screen. -/
theorem onlyClsAndDrwWriteTheDisplay : Obligations.OnlyClsAndDrwWriteTheDisplay :=
  ⟨fun _ _ _ hi h => (exec_frame h).display hi, fun x s => (waitingStep_frame x s).fb, fun _ => rfl⟩

/-- Settles O22: the frames' fields for memory. -/
theorem onlyBcdAndBlockStoreWriteMemory : Obligations.OnlyBcdAndBlockStoreWriteMemory :=
  ⟨fun _ _ _ hi h => (exec_frame h).memory hi, fun x s => (waitingStep_frame x s).mem⟩

/-- Settles O24: a waiting step writes neither; a running one has the frame of the instruction it decoded. -/
theorem stepsNeverTickTimersNorWriteKeys : Obligations.StepsNeverTickTimersNorWriteKeys := by
  intro s t h
  rcases step_eq_next h with ⟨x, -, rfl⟩ | ⟨-, i, hd, hexec⟩
  · have hframe := waitingStep_frame x s
    exact ⟨hframe.key, fun _ => hframe.dt, fun _ => hframe.st⟩
  · have hframe := exec_frame hexec
    refine ⟨hframe.key, fun hne => hframe.delay ?_, fun hne => hframe.sound ?_⟩
    · rintro x rfl; exact hne x hd
    · rintro x rfl; exact hne x hd

/-! I. -/

/-- In the original profile a block transfer moves I behind the block, mod 4096 (42_index_memory.md R175). -/
theorem State.afterBlock_i_original {s : State} (h : s.profile = .original) (x : Reg) :
    (s.afterBlock x).i.toNat = (s.i.toNat + x.val + 1) % 4096 := by
  have hx := x.isLt
  rw [State.afterBlock_i, if_pos h, masked_toNat, BitVec.toNat_add, BitVec.toNat_ofNat]
  omega

theorem State.afterBlock_i_lt {s : State} (h : s.profile = .original) (x : Reg) : (s.afterBlock x).i.toNat < 4096 := by
  rw [State.afterBlock_i_original h]
  exact Nat.mod_lt _ (by decide)

/-- Each write of I is masked, so it is below 4096 whatever I was. -/
theorem exec_writes_index_lt {i : Instr} {s t : State} (hi : writesIndex s.profile i = true) (h : exec i s = .next t) :
    t.i.toNat < 4096 := by
  cases i
  case ldI | addI | ldF => cases h; exact masked_lt _
  case stRegs x | ldRegs x =>
    cases h
    refine State.afterBlock_i_lt ?_ x
    simpa [writesIndex] using hi
  all_goals cases hi

/-- Settles O23: the frame's field for I, and the mask of every write. -/
theorem indexIsWrittenMaskedAndByFewInstructions : Obligations.IndexIsWrittenMaskedAndByFewInstructions :=
  ⟨fun _ _ _ hi h => (exec_frame h).index hi, fun _ _ _ hi h => exec_writes_index_lt hi h⟩

/-! The invariant: I below 4096 and the memory canonical. -/

theorem exec_mem_wf {i : Instr} {s t : State} (hs : s.mem.wf = true) (h : exec i s = .next t) : t.mem.wf = true := by
  cases hi : writesMemory i with
  | false => rw [(exec_frame h).memory hi]; exact hs
  | true =>
    cases i
    case ldB x => cases h; exact memWriteBytes_wf _ _ hs
    case stRegs x =>
      cases h
      rw [State.advance_mem, State.afterBlock_mem]
      exact memWriteBytes_wf _ _ hs
    all_goals cases hi

theorem exec_i_lt {i : Instr} {s t : State} (hs : s.i.toNat < 4096) (h : exec i s = .next t) : t.i.toNat < 4096 := by
  cases hi : writesIndex s.profile i with
  | false => rw [(exec_frame h).index hi]; exact hs
  | true => exact exec_writes_index_lt hi h

theorem step_inv {s t : State} (hs : s.Inv) (h : step s = .next t) : t.Inv := by
  obtain ⟨hmem, hi⟩ := hs
  rcases step_eq_next h with ⟨x, -, rfl⟩ | ⟨-, i, -, hexec⟩
  · have hframe := waitingStep_frame x s
    exact ⟨by rw [hframe.mem]; exact hmem, by rw [hframe.i]; exact hi⟩
  · exact ⟨exec_mem_wf hmem hexec, exec_i_lt hi hexec⟩

/-- Settles O15: memory is written through `memWriteBytes`, which keeps the canonical form, and I through the mask. -/
theorem everyStepKeepsTheStateInvariant : Obligations.EveryStepKeepsTheStateInvariant := fun _ _ hs h => step_inv hs h

theorem load_inv {bg : Memory} {rom : List Byte} {p : Profile} {s t : State} (hbg : bg.wf = true)
    (h : load bg rom p s = .next t) : t.Inv := by
  rcases Nat.lt_or_ge 3584 rom.length with hlong | hshort
  · rw [load_long bg p s hlong] at h; cases h
  · rw [load_short bg p s hshort] at h; cases h
    exact ⟨memWriteBytes_wf _ _ (memWriteBytes_wf _ _ hbg), show (0#16).toNat < 4096 by decide⟩

theorem transact_inv {e : Transaction} {s t : State} (hs : s.Inv) (he : e.wf) (h : transact e s = .next t) : t.Inv := by
  cases e with
  | load bg rom p => exact load_inv he h
  | step r =>
    have h : stepWith r s = .next t := h
    rcases stepWith_cases r s with heq | ⟨-, x, nn, -, heq⟩
    · exact step_inv hs (heq ▸ h)
    · rw [heq] at h; cases h; exact hs
  | tick => cases h; exact hs
  | setKey k pressed => cases h; exact hs

/-- Settles O16: by induction on the history, one transaction at a time. -/
theorem everyHistoryKeepsTheStateInvariant : Obligations.EveryHistoryKeepsTheStateInvariant := by
  intro ts
  induction ts with
  | nil => intro s t hs _ h; cases h; exact hs
  | cons e ts ih =>
    intro s t hs hts h
    obtain ⟨he, hts⟩ := List.forall_mem_cons.mp hts
    obtain ⟨u, hu, hrest⟩ := runHistory_cons_next h
    exact ih u t (transact_inv hs he hu) hts hrest

/-- Settles O14: no cells, and I is 0. -/
theorem resetMeetsTheStateInvariant : Obligations.ResetMeetsTheStateInvariant := fun _ => ⟨nil_wf, show (0#16).toNat < 4096 by decide⟩

/-! General registers. -/

/-- The register file after a block load: the block's byte up to x, the old value above (42_index_memory.md R175). -/
theorem loadBlock_getElem (s : State) (x r : Reg) : (loadRegs s.v 0 (memReadBytes s.mem s.i.toNat (x.val + 1)))[r.val] =
    if r ≤ x then memRead s.mem (s.i.toNat + r.val) else s.reg r := by
  refine (loadRegs_getElem _ s.v 0 r.val r.isLt).trans ?_
  simp only [memReadBytes_length, Nat.zero_le, true_and, Nat.zero_add, Nat.sub_zero]
  by_cases hr : r.val < x.val + 1
  · have hle : r ≤ x := Nat.lt_succ_iff.mp hr
    rw [dif_pos hr, if_pos hle, memReadBytes_getElem _ _ _ _ hr]
  · rw [dif_neg hr, if_neg (fun hle : r ≤ x => hr (Nat.lt_succ_iff.mpr hle))]
    rfl

theorem exec_ldRegs_reg {x : Reg} {s t : State} (h : exec (.ldRegs x) s = .next t) (r : Reg) :
    t.reg r = if r ≤ x then memRead s.mem (s.i.toNat + r.val) else s.reg r := by
  cases h
  exact (State.reg_congr (State.afterBlock_v _ x) r).trans (loadBlock_getElem s x r)

/-- No instruction writes a register that is not listed for it: most write none, one or one and VF. -/
theorem exec_reg {i : Instr} {s t : State} {r : Reg} (hr : r ∉ regsWritten i) (h : exec i s = .next t) :
    t.reg r = s.reg r := by
  rcases exec_eq_next h with ⟨_, rfl, _, rfl⟩ | ⟨rfl, _, rfl⟩ | ⟨hstack, hsys⟩
  · rfl
  · rfl
  cases i
  case call | ret => cases hstack
  case sys nnn => exact absurd rfl (hsys nnn)
  case ldImm | addImm | ldReg | orReg | andReg | xorReg | rnd | ldVxDt =>
    cases h
    exact (State.reg_setReg _ _ r _).trans (if_neg (List.mem_singleton.not.mp hr))
  case addReg | sub | subn | shr | shl =>
    cases h
    exact unchanged_setRegFlag_advance s _ _ _ (.reg r) (by simpa [regsWritten] using hr)
  case drw =>
    cases h
    exact (State.reg_setFlag _ r _).trans (if_neg (List.mem_singleton.not.mp hr))
  case stRegs x => cases h; exact State.reg_congr (State.afterBlock_v _ x) r
  case ldRegs x =>
    rw [exec_ldRegs_reg h, if_neg (by simpa [regsWritten] using hr)]
  all_goals cases h; rfl

/-- Settles O25: `exec_reg`, the register frame of every instruction. -/
theorem instructionsWriteOnlyTheirRegisters : Obligations.InstructionsWriteOnlyTheirRegisters :=
  fun _ _ _ _ hr h => exec_reg hr h

theorem State.setFlag_zero_or_one (s : State) (c : Bool) :
    (s.setFlag c).reg Reg.flag = 0#8 ∨ (s.setFlag c).reg Reg.flag = 1#8 := by
  rw [State.reg_setFlag, if_pos rfl]
  cases c
  · exact Or.inl rfl
  · exact Or.inr rfl

/-- Settles O26: the six end with the write of a flag. -/
theorem vfIsZeroOrOneAfterAFlagInstruction : Obligations.VfIsZeroOrOneAfterAFlagInstruction := by
  intro i s t hi h
  cases i
  case addReg | sub | subn | shr | shl | drw =>
    cases h
    exact State.setFlag_zero_or_one _ _
  all_goals cases hi

end Sys2Proof.Machine

/-! PROOFS. Memory as data, fetch, reset and LOAD: canonical memories are determined by what they read, what the fetch sees, and what
LOAD lays out (20_memory.md R60 to R73, 10_state.md R40, R41, 70_reset_and_hazards.md R250). -/
namespace Sys2Proof.Machine

/-! Canonical memories. -/

theorem Memory.find_eq_none_of_lt {lo a : Nat} {m : Memory} (hm : Memory.wfFrom lo m = true) (ha : a < lo) :
    m.find a = none := by
  induction m generalizing lo with
  | nil => rfl
  | cons c rest ih =>
    obtain ⟨k, b⟩ := c
    simp only [Memory.wfFrom, Bool.and_eq_true, decide_eq_true_eq] at hm
    obtain ⟨⟨⟨hlo, -⟩, -⟩, hrest⟩ := hm
    rw [Memory.find, if_neg (by omega), ih hrest (by omega)]

/-- Below its first listed address a canonical memory reads as the background. -/
theorem Memory.cellAt_of_lt {lo a : Nat} {m : Memory} (hm : Memory.wfFrom lo m = true) (ha : a < lo) :
    m.cellAt a = Memory.background a := by
  rw [Memory.cellAt, Memory.find_eq_none_of_lt hm ha, Option.getD_none]

@[simp] theorem Memory.cellAt_cons_self (k : Nat) (b : Byte) (rest : Memory) : Memory.cellAt ((k, b) :: rest) k = b := by
  simp [Memory.cellAt, Memory.find]

theorem Memory.cellAt_cons_ne {k a : Nat} (h : a ≠ k) (b : Byte) (rest : Memory) :
    Memory.cellAt ((k, b) :: rest) a = Memory.cellAt rest a := by
  simp only [Memory.cellAt, Memory.find, if_neg h]

/-- The head of a canonical memory: its address, that it differs from the background, and the rest. -/
theorem Memory.wfFrom_cons {lo k : Nat} {b : Byte} {rest : Memory} (h : Memory.wfFrom lo ((k, b) :: rest) = true) :
    (lo ≤ k ∧ k < 4096) ∧ b ≠ Memory.background k ∧ Memory.wfFrom (k + 1) rest = true := by
  simp only [Memory.wfFrom, Bool.and_eq_true, decide_eq_true_eq, bne_iff_ne] at h
  exact ⟨h.1.1, h.1.2, h.2⟩

/-- Where the first list begins, the second one lists that address too: it reads a byte other than the background there. -/
theorem Memory.head_le {lo k k' : Nat} {b b' : Byte} {rest rest' : Memory} (hm : Memory.wfFrom lo ((k, b) :: rest) = true)
    (hm' : Memory.wfFrom lo ((k', b') :: rest') = true)
    (hread : ∀ a < 4096, Memory.cellAt ((k, b) :: rest) a = Memory.cellAt ((k', b') :: rest') a) : k' ≤ k := by
  obtain ⟨⟨-, hk⟩, hb, -⟩ := Memory.wfFrom_cons hm
  obtain ⟨-, -, hrest'⟩ := Memory.wfFrom_cons hm'
  by_contra hlt
  have hbg : Memory.cellAt ((k', b') :: rest') k = Memory.background k := by
    rw [Memory.cellAt_cons_ne (by omega), Memory.cellAt_of_lt hrest' (by omega)]
  rw [← hread k hk, Memory.cellAt_cons_self] at hbg
  exact hb hbg

theorem Memory.nil_of_reads_background {lo : Nat} {m : Memory} (hm : Memory.wfFrom lo m = true)
    (hread : ∀ a < 4096, m.cellAt a = Memory.background a) : m = [] := by
  cases m with
  | nil => rfl
  | cons c rest =>
    obtain ⟨⟨-, hk⟩, hb, -⟩ := Memory.wfFrom_cons hm
    exact absurd ((Memory.cellAt_cons_self ..).symm.trans (hread _ hk)) hb

theorem Memory.eq_of_cellAt_eq {lo : Nat} {m m' : Memory} (hm : Memory.wfFrom lo m = true) (hm' : Memory.wfFrom lo m' = true)
    (hread : ∀ a < 4096, m.cellAt a = m'.cellAt a) : m = m' := by
  induction m generalizing lo m' with
  | nil => exact (Memory.nil_of_reads_background hm' fun a ha => (hread a ha).symm).symm
  | cons c rest ih =>
    obtain ⟨k, b⟩ := c
    cases m' with
    | nil => exact Memory.nil_of_reads_background hm hread
    | cons c' rest' =>
      obtain ⟨k', b'⟩ := c'
      obtain rfl : k = k' := le_antisymm (Memory.head_le hm' hm fun a ha => (hread a ha).symm) (Memory.head_le hm hm' hread)
      obtain ⟨⟨-, hk⟩, -, hrest⟩ := Memory.wfFrom_cons hm
      obtain ⟨-, -, hrest'⟩ := Memory.wfFrom_cons hm'
      obtain rfl : b = b' := by simpa using hread k hk
      rw [ih hrest hrest' fun a ha => ?_]
      by_cases hak : a = k
      · rw [hak, Memory.cellAt_of_lt hrest (Nat.lt_succ_self k), Memory.cellAt_of_lt hrest' (Nat.lt_succ_self k)]
      · simpa only [Memory.cellAt_cons_ne hak] using hread a ha

/-- Settles O10: by induction on the first list; its first address is the least one that does not read as the background, so both lists
begin alike. -/
theorem canonicalMemoriesThatReadTheSameAreEqual : Obligations.CanonicalMemoriesThatReadTheSameAreEqual := by
  intro m m' hm hm' hread
  refine Memory.eq_of_cellAt_eq hm hm' fun a ha => ?_
  have := hread ⟨a, ha⟩
  rwa [memRead, memRead, translate, Nat.mod_eq_of_lt ha] at this

/-! The fetch. -/

theorem fetchWord_toNat (s : State) :
    (fetchWord s).toNat = 256 * (memRead s.mem s.pc.toNat).toNat + (memRead s.mem (s.pc.toNat + 1)).toNat :=
  wordOfBytes_toNat _ _

/-- Settles O2: the fetched bytes, each address wrapped by `memRead_translate`. -/
theorem fetchReadsTwoWrappedBytes : Obligations.FetchReadsTwoWrappedBytes := by
  intro s
  rw [fetchWord_toNat, memRead_translate, memRead_translate]

/-- Settles O3: each of the two reads is at an address that agrees mod 4096. -/
theorem pcsThatAgreeModMemoryFetchTheSame : Obligations.PcsThatAgreeModMemoryFetchTheSame := by
  intro s p hp
  have hhi : memRead s.mem p.toNat = memRead s.mem s.pc.toNat := memRead_congr s.mem hp
  have hlo : memRead s.mem (p.toNat + 1) = memRead s.mem (s.pc.toNat + 1) := memRead_congr s.mem (by omega)
  simp only [fetchWord, State.load8, State.setPc_pc, State.setPc_mem, hhi, hlo]

/-- Settles O4: the two bytes are read back where they were stored. -/
theorem fetchSeesAStoreAtPc : Obligations.FetchSeesAStoreAtPc := by
  intro s hi lo
  have hread (k : Nat) (hk : k < 2) := memRead_memWriteBytes [hi, lo] s.mem s.pc.toNat k (show 2 ≤ 4096 by decide) hk
  exact congrArg₂ wordOfBytes (hread 0 (by decide)) (hread 1 (by decide))

/-! The font, reset and LOAD. -/

/-- The font's glyphs are in memory when its 80 bytes are. -/
theorem holdsFont_of_fontData {m : Memory} (h : ∀ k < 80, memRead m (0x050 + k) = Config.fontData.getD k 0#8) : HoldsFont m := by
  have hglyph (d : Nat) (hd : d < 16) : glyphAt m d = (List.range 5).map fun k => Config.fontData.getD (5 * d + k) 0#8 := by
    refine List.map_congr_left fun k hk => ?_
    have hk := List.mem_range.mp hk
    rw [Nat.add_assoc, h _ (by omega)]
  unfold HoldsFont
  simp only [hglyph, Nat.reduceLT]
  decide

/-- The empty list of cells reads as the background, the font's constant from 0x050 (10_state.md R40, R41). -/
theorem memRead_nil_font (k : Nat) (hk : k < 80) : memRead [] (0x050 + k) = Config.fontData.getD k 0#8 := by
  have haddr : translate (0x050 + k) = Config.fontBase + k := Nat.mod_eq_of_lt (by omega)
  rw [memRead, haddr, Memory.cellAt, Memory.find, Option.getD_none, Memory.background, if_pos (Nat.le_add_right ..),
    Nat.add_sub_cancel_left]

/-- Settles O11: the empty memory reads as the background, which holds the font. -/
theorem resetHoldsTheSpecsValues : Obligations.ResetHoldsTheSpecsValues := by
  intro p
  refine ⟨fun r => ?_, rfl, rfl, rfl, rfl, rfl, fun y x => Screen.pixel_clear y x, rfl, rfl, 
    holdsFont_of_fontData fun k hk => memRead_nil_font k hk, rfl, rfl⟩
  exact Vector.getElem_replicate r.isLt

/-- Settles O12: the registers are those of `clearRegisters`; memory is read address by address from `memRead_loadedMemory`. -/
theorem loadSetsRegistersAndMemory : Obligations.LoadSetsRegistersAndMemory := by
  intro bg rom p s hlen
  have hread {a : Nat} (ha : a < 4096) := memRead_loadedMemory bg hlen ha
  refine ⟨_, load_short bg p s hlen, fun r => Vector.getElem_replicate r.isLt, rfl, rfl, rfl, rfl, rfl, Screen.pixel_clear, rfl, rfl,
    rfl, rfl, rfl, holdsFont_of_fontData fun k hk => ?_, fun j hj => ?_, fun a ha hfont hrom => ?_⟩
  · rw [hread (by omega), if_neg (by omega), if_pos (by omega), Nat.add_sub_cancel_left]
  · rw [hread (by omega), if_pos (by omega), Nat.add_sub_cancel_left]
  · rw [hread ha, if_neg hrom, if_neg hfont]

end Sys2Proof.Machine

/-! PROOFS. Control transfer, the rest: SYS, the skips on registers, the jump with offset, and a CALL with the RET that comes back from it
(40_control_flow.md R121, R127 to R129, 10_state.md R32). -/
namespace Sys2Proof.Machine

/-! Rows of the opcode table. -/

theorem selects_jpV0 : Selects 0xF000#16 0xB000#16 (fun op => .jpV0 (opNnn op)) :=
  selects_of_major fun op (hop : major op = 0xB) => by simp only [decodeWord, hop, fieldNnn_eq]

theorem selects_seReg : Selects 0xF00F#16 0x5000#16 (fun op => .seReg (opX op) (opY op)) :=
  selects_of_major_fieldN fun op (hop : major op = 0x5) (hn : (fieldN op).val = 0x0) => by
    simp only [decodeWord, hop, decodeXy0, hn, if_true, fieldX_eq, fieldY_eq]

theorem selects_sneReg : Selects 0xF00F#16 0x9000#16 (fun op => .sneReg (opX op) (opY op)) :=
  selects_of_major_fieldN fun op (hop : major op = 0x9) (hn : (fieldN op).val = 0x0) => by
    simp only [decodeWord, hop, decodeXy0, hn, if_true, fieldX_eq, fieldY_eq]

/-- With a low nibble other than 0 majors 5 and 9 have no instruction (30_encoding.md R100). -/
theorem decodeWord_xy_unassigned {op : Word} (hop : op &&& 0xF000#16 = 0x5000#16 ∨ op &&& 0xF000#16 = 0x9000#16)
    (hlow : op &&& 0x000F#16 ≠ 0#16) : decodeWord op = .unassigned op := by
  have hn : (fieldN op).val ≠ 0 := by
    rw [fieldN_val]
    intro hzero
    refine hlow (BitVec.eq_of_toNat_eq ?_)
    rw [BitVec.toNat_and]
    exact (Nat.and_two_pow_sub_one_eq_mod op.toNat 4).trans hzero
  rcases hop with hop | hop
  · have hmajor : major op = 0x5 := major_of_mask hop rfl
    simp only [decodeWord, hmajor, decodeXy0, if_neg hn]
  · have hmajor : major op = 0x9 := major_of_mask hop rfl
    simp only [decodeWord, hmajor, decodeXy0, if_neg hn]

/-- Settles O33: both are `skipIf`, on the comparison and on its negation. -/
theorem skipsOnRegistersMovePcByFourOrTwo : Obligations.SkipsOnRegistersMovePcByFourOrTwo := by
  refine ⟨selects_seReg, selects_sneReg, fun _ => decodeWord_xy_unassigned,
    fun x y s => ⟨_, exec_seReg x y s, ?_, unchanged_skipIf _ s _⟩,
    fun x y s => ⟨_, exec_sneReg x y s, ?_, unchanged_skipIf _ s _⟩⟩
  · simp only [State.skipIf_pc_toNat, beq_iff_eq]
  · simp only [State.skipIf_pc_toNat, bne_iff_ne, ne_eq, ite_not]

/-- Settles O35: the exact matches of major 0 are excluded, and the fault reports the opcode of SYS. -/
theorem sysAlwaysFaults : Obligations.SysAlwaysFaults := by
  refine ⟨fun op hop hcls hret => ?_, fun nnn s => ⟨_, ?_, exec_sys nnn s⟩⟩
  · have hmajor : major op = 0x0 := major_of_mask hop rfl
    simp only [decodeWord, hmajor, decodeZero, if_neg hcls, if_neg hret, fieldNnn_eq]
  · rw [encode, formA_toNat]
    exact Nat.zero_add _

/-! The jump with offset. -/

/-- The sum of a 12-bit address and a byte fits 16 bits, so nothing wraps (D17). -/
theorem jump_target_toNat (nnn : Addr) (b : Byte) : (addrOperand nnn + b.setWidth 16).toNat = nnn.toNat + b.toNat := by
  have hsum : nnn.toNat + b.toNat < 2 ^ 16 := by omega
  rw [BitVec.toNat_add, addrOperand_toNat, BitVec.toNat_setWidth_of_le (by decide), Nat.mod_eq_of_lt hsum]

theorem jumpOffset_original {s : State} (h : s.profile = .original) (nnn : Addr) : s.jumpOffset nnn = s.reg 0 := by
  simp only [State.jumpOffset, h]

theorem topNibble_val (nnn : Addr) : (topNibble nnn).val = nnn.toNat / 256 := by
  have hlt : nnn.toNat / 256 < 16 := by omega
  simpa [topNibble, Nat.shiftRight_eq_div_pow] using hlt

theorem jumpOffset_modern {s : State} (h : s.profile = .modern) {nnn : Addr} {x : Reg} (hx : x.val = nnn.toNat / 256) :
    s.jumpOffset nnn = s.reg x := by
  obtain rfl : x = topNibble nnn := Fin.ext (hx.trans (topNibble_val nnn).symm)
  simp only [State.jumpOffset, h]

/-- Settles O34: one write of pc, with the profile's register for the offset. -/
theorem jumpWithOffsetAddsTheProfilesRegister : Obligations.JumpWithOffsetAddsTheProfilesRegister := by
  refine ⟨selects_jpV0, fun nnn s => ⟨_, exec_jpV0 nnn s, fun hp => ?_, fun hp x hx => ?_, unchanged_setPc _ s _⟩⟩
  · rw [State.setPc_pc, jump_target_toNat, jumpOffset_original hp]
  · rw [State.setPc_pc, jump_target_toNat, jumpOffset_modern hp hx]

/-! CALL and then RET. -/

theorem Part.same_trans {p : Part} {s t u : State} (hst : p.same s t) (htu : p.same t u) : p.same s u := by
  cases p <;> exact Eq.trans htu hst

/-- Settles O31: RET pops the slot CALL pushed, and the depth is back where it was. -/
theorem callThenRetComesBack : Obligations.CallThenRetComesBack := by
  intro nnn s j hsp
  obtain ⟨t, hcall, hslot, hdepth, -, hframe⟩ := exec_call_slot nnn s j hsp
  obtain ⟨u, hret, hpc, hback, hframe'⟩ := exec_ret_slot t j (by omega)
  refine ⟨t, u, hcall, hret, by rw [hpc, hslot, State.next_toNat], fun p hp => ?_⟩
  by_cases hdep : p = .depth
  · subst hdep
    exact Fin.ext (hback.trans hsp.symm)
  · exact Part.same_trans (hframe p (by simp [hdep, hp])) (hframe' p hdep)

end Sys2Proof.Machine

/-! PROOFS. Register load, arithmetic and logic, the rest of the family and what is common to it; and STEP with a given random byte
(41_alu.md R140 to R154, 00_scope.md R7). -/
namespace Sys2Proof.Machine

/-! Rows of the opcode table. -/

theorem selects_ldReg : Selects 0xF00F#16 0x8000#16 (fun op => .ldReg (opX op) (opY op)) :=
  selects_of_major_fieldN fun op (hop : major op = 0x8) (hn : (fieldN op).val = 0x0) => by
    simp only [decodeWord, hop, decodeAlu, hn, fieldX_eq, fieldY_eq]

theorem selects_orReg : Selects 0xF00F#16 0x8001#16 (fun op => .orReg (opX op) (opY op)) :=
  selects_of_major_fieldN fun op (hop : major op = 0x8) (hn : (fieldN op).val = 0x1) => by
    simp only [decodeWord, hop, decodeAlu, hn, fieldX_eq, fieldY_eq]

theorem selects_andReg : Selects 0xF00F#16 0x8002#16 (fun op => .andReg (opX op) (opY op)) :=
  selects_of_major_fieldN fun op (hop : major op = 0x8) (hn : (fieldN op).val = 0x2) => by
    simp only [decodeWord, hop, decodeAlu, hn, fieldX_eq, fieldY_eq]

theorem selects_xorReg : Selects 0xF00F#16 0x8003#16 (fun op => .xorReg (opX op) (opY op)) :=
  selects_of_major_fieldN fun op (hop : major op = 0x8) (hn : (fieldN op).val = 0x3) => by
    simp only [decodeWord, hop, decodeAlu, hn, fieldX_eq, fieldY_eq]

theorem selects_sub : Selects 0xF00F#16 0x8005#16 (fun op => .sub (opX op) (opY op)) :=
  selects_of_major_fieldN fun op (hop : major op = 0x8) (hn : (fieldN op).val = 0x5) => by
    simp only [decodeWord, hop, decodeAlu, hn, fieldX_eq, fieldY_eq]

theorem selects_shr : Selects 0xF00F#16 0x8006#16 (fun op => .shr (opX op) (opY op)) :=
  selects_of_major_fieldN fun op (hop : major op = 0x8) (hn : (fieldN op).val = 0x6) => by
    simp only [decodeWord, hop, decodeAlu, hn, fieldX_eq, fieldY_eq]

theorem selects_subn : Selects 0xF00F#16 0x8007#16 (fun op => .subn (opX op) (opY op)) :=
  selects_of_major_fieldN fun op (hop : major op = 0x8) (hn : (fieldN op).val = 0x7) => by
    simp only [decodeWord, hop, decodeAlu, hn, fieldX_eq, fieldY_eq]

theorem selects_shl : Selects 0xF00F#16 0x800E#16 (fun op => .shl (opX op) (opY op)) :=
  selects_of_major_fieldN fun op (hop : major op = 0x8) (hn : (fieldN op).val = 0xE) => by
    simp only [decodeWord, hop, decodeAlu, hn, fieldX_eq, fieldY_eq]

theorem selects_rnd : Selects 0xF000#16 0xC000#16 (fun op => .rnd (opX op) (opNn op)) :=
  selects_of_major fun op (hop : major op = 0xC) => by simp only [decodeWord, hop, fieldX_eq, fieldNn_eq]

/-! Frames. -/

/-- A smaller set of written pieces is a stronger frame. -/
theorem Unchanged.mono {written written' : Part → Prop} {s t : State} (h : Unchanged written s t)
    (hsub : ∀ p, written p → written' p) : Unchanged written' s t :=
  fun p hp => h p fun hw => hp (hsub p hw)

/-! Copy and logic. -/

/-- Settles O37: each ends in one write of V[x] and the move of pc, with no flag. -/
theorem copyAndLogicWriteOneRegisterAndNoFlag : Obligations.CopyAndLogicWriteOneRegisterAndNoFlag := by
  refine ⟨selects_ldReg, selects_orReg, selects_andReg, selects_xorReg,
    fun x y s => ⟨_, exec_ldReg x y s, State.reg_setReg_self s x _, State.advance_pc_toNat _, unchanged_setReg_advance s x _⟩,
    fun x y s => ⟨_, exec_orReg x y s, fun k _ => ?_, State.advance_pc_toNat _, unchanged_setReg_advance s x _⟩,
    fun x y s => ⟨_, exec_andReg x y s, fun k _ => ?_, State.advance_pc_toNat _, unchanged_setReg_advance s x _⟩,
    fun x y s => ⟨_, exec_xorReg x y s, fun k _ => ?_, State.advance_pc_toNat _, unchanged_setReg_advance s x _⟩⟩
  · rw [State.reg_advance, State.reg_setReg_self, BitVec.getLsbD_or]
  · rw [State.reg_advance, State.reg_setReg_self, BitVec.getLsbD_and]
  · rw [State.reg_advance, State.reg_setReg_self, BitVec.getLsbD_xor]

/-! Subtraction. -/

/-- Subtraction of bytes is the difference mod 256 (41_alu.md R148). -/
theorem byte_sub_toNat (a b : Byte) : ((a - b).toNat : Int) = ((a.toNat : Int) - b.toNat) % 256 := by
  have ha := a.isLt
  have hb := b.isLt
  rw [BitVec.toNat_sub]
  omega

theorem flagByte_noBorrow_toNat (a b : Byte) : (flagByte (noBorrow a b)).toNat = if a.toNat ≥ b.toNat then 1 else 0 := by
  simp only [flagByte_toNat, noBorrow, decide_eq_true_eq, ge_iff_le]

/-- Settles O39: the difference and its borrow come from the old operands; VF is written last. -/
theorem subtractionsWriteDifferenceThenNoBorrow : Obligations.SubtractionsWriteDifferenceThenNoBorrow := by
  refine ⟨selects_sub, selects_subn,
    fun x y s => ⟨_, exec_sub x y s, fun hx => ?_, ?_, State.advance_pc_toNat _, unchanged_setRegFlag_advance s x _ _⟩,
    fun x y s => ⟨_, exec_subn x y s, fun hx => ?_, ?_, State.advance_pc_toNat _, unchanged_setRegFlag_advance s x _ _⟩⟩
  · rw [State.reg_advance, State.reg_setRegFlag_dest s hx, byte_sub_toNat]
  · rw [State.reg_advance, State.reg_setRegFlag_flag, flagByte_noBorrow_toNat]
  · rw [State.reg_advance, State.reg_setRegFlag_dest s hx, byte_sub_toNat]
  · rw [State.reg_advance, State.reg_setRegFlag_flag, flagByte_noBorrow_toNat]

/-! Shifts. -/

theorem shiftSource_eq {s : State} {x y z : Reg} (h : (s.profile = .original ∧ z = y) ∨ (s.profile = .modern ∧ z = x)) :
    s.shiftSource x y = s.reg z := by
  rcases h with ⟨hp, rfl⟩ | ⟨hp, rfl⟩ <;> simp only [State.shiftSource, hp]

theorem shiftRight_one_toNat (b : Byte) : (b >>> 1).toNat = b.toNat / 2 := by
  rw [BitVec.toNat_ushiftRight, Nat.shiftRight_eq_div_pow, pow_one]

theorem shiftLeft_one_toNat (b : Byte) : (b <<< 1).toNat = 2 * b.toNat % 256 := by
  rw [BitVec.toNat_shiftLeft, Nat.shiftLeft_eq, pow_one, Nat.mul_comm]

theorem flagByte_bitOutRight_toNat (b : Byte) : (flagByte (bitOutRight b)).toNat = b.toNat % 2 := by
  rw [flagByte_toNat, bitOutRight, BitVec.getLsbD, Nat.testBit_zero]
  simp only [decide_eq_true_eq]
  split <;> omega

theorem flagByte_bitOutLeft_toNat (b : Byte) : (flagByte (bitOutLeft b)).toNat = b.toNat / 128 := by
  have hlt := b.isLt
  rw [flagByte_toNat, bitOutLeft, BitVec.getLsbD, Nat.testBit_eq_decide_div_mod_eq]
  simp only [decide_eq_true_eq]
  split <;> omega

/-- Settles O40: the source is the profile's; the shifted byte and the lost bit are both taken from it. -/
theorem shiftsMoveOnePlaceAndReportTheLostBit : Obligations.ShiftsMoveOnePlaceAndReportTheLostBit := by
  refine ⟨selects_shr, selects_shl,
    fun x y z s hz => ⟨_, exec_shr x y s, fun hx => ?_, ?_, State.advance_pc_toNat _, unchanged_setRegFlag_advance s x _ _⟩,
    fun x y z s hz => ⟨_, exec_shl x y s, fun hx => ?_, ?_, State.advance_pc_toNat _, unchanged_setRegFlag_advance s x _ _⟩⟩
  · rw [State.reg_advance, State.reg_setRegFlag_dest s hx, shiftRight_one_toNat, shiftSource_eq hz]
  · rw [State.reg_advance, State.reg_setRegFlag_flag, flagByte_bitOutRight_toNat, shiftSource_eq hz]
  · rw [State.reg_advance, State.reg_setRegFlag_dest s hx, shiftLeft_one_toNat, shiftSource_eq hz]
  · rw [State.reg_advance, State.reg_setRegFlag_flag, flagByte_bitOutLeft_toNat, shiftSource_eq hz]

/-! RND, and STEP with a given byte. -/

/-- The draw advances the model's count and writes V[x], nothing else (log 6). -/
theorem unchanged_rnd (s : State) (x : Reg) (b : Byte) :
    Unchanged (· ∈ [.reg x, .draws]) s (({ s with draws := s.draws + 1 } : State).setReg x b).advance := by
  intro p hp
  cases p
  case draws => simp at hp
  case reg r => exact unchanged_setReg_advance s x b (.reg r) fun heq => hp (by simp [heq])
  all_goals rfl

/-- Settles O41: the draw's count moves on, and V[x] is the drawn byte under the mask. -/
theorem rndWritesTheDrawnByteUnderTheMask : Obligations.RndWritesTheDrawnByteUnderTheMask := by
  refine ⟨selects_rnd, fun x nn s => ⟨_, exec_rnd x nn s, fun k _ => ?_, rfl, State.advance_pc_toNat _, unchanged_rnd s x _⟩⟩
  rw [State.reg_advance, State.reg_setReg_self, BitVec.getLsbD_and]

theorem stepWith_of_not_rnd {s : State} (h : s.wait = .running → ∀ x nn, decodeWord (fetchWord s) ≠ .ok (.rnd x nn)) (r : Byte) :
    stepWith r s = step s := by
  rcases stepWith_cases r s with heq | ⟨hw, x, nn, hd, -⟩
  · exact heq
  · exact absurd hd (h hw x nn)

/-- `step` is the STEP whose byte is the next of the free stream, but for the count of draws. -/
theorem stepWith_of_step {s t : State} (h : step s = .next t) :
    ∃ u, stepWith (Config.rndByte s.draws) s = .next u ∧ u.pc = t.pc ∧ Unchanged (· = .draws) u t := by
  rcases stepWith_cases (Config.rndByte s.draws) s with heq | ⟨hw, x, nn, hd, heq⟩
  · exact ⟨t, heq.trans h, rfl, fun p _ => by cases p <;> rfl⟩
  · rw [step_of_decodes hw hd, exec_rnd] at h
    cases h
    refine ⟨_, heq, rfl, fun p hp => ?_⟩
    cases p
    case draws => exact absurd rfl hp
    all_goals rfl

/-- Settles O42: the three cases of `stepWith`. -/
theorem stepWithAnyRandomByte : Obligations.StepWithAnyRandomByte := by
  refine ⟨fun r _ h => stepWith_of_not_rnd h r, fun r s x nn hw hd => ?_, fun _ _ => stepWith_of_step⟩
  refine ⟨_, stepWith_rnd hw hd, fun k _ => ?_, State.advance_pc_toNat _, unchanged_setReg_advance s x _⟩
  rw [State.reg_advance, State.reg_setReg_self, BitVec.getLsbD_and]

/-! The whole family. -/

/-- Settles O27: an instruction of the family ends with a write of V[x], with or without VF; RND also counts its draw. -/
theorem aluFamilyTouchesOnlyRegisters : Obligations.AluFamilyTouchesOnlyRegisters := by
  intro i s hi
  cases i
  case ldImm | addImm | ldReg | orReg | andReg | xorReg =>
    refine ⟨_, rfl, State.advance_pc_toNat _, (unchanged_setReg_advance s _ _).mono ?_⟩
    rintro _ rfl
    exact Or.inl (Fin.le_last _)
  case addReg | sub | subn | shr | shl =>
    refine ⟨_, rfl, State.advance_pc_toNat _, (unchanged_setRegFlag_advance s _ _ _).mono fun p hp => ?_⟩
    rcases List.mem_pair.mp hp with rfl | rfl
    · exact Or.inl (Fin.le_last _)
    · exact Or.inl (Fin.le_last _)
  case rnd x nn =>
    refine ⟨_, rfl, State.advance_pc_toNat _, (unchanged_rnd s x _).mono fun p hp => ?_⟩
    rcases List.mem_pair.mp hp with rfl | rfl
    · exact Or.inl (Fin.le_last _)
    · exact Or.inr ⟨rfl, x, nn, rfl⟩
  all_goals cases hi

end Sys2Proof.Machine

/-! PROOFS. Index and memory, the rest: LD I, ADD I, LD F and the two block transfers (42_index_memory.md R171 to R177). -/
namespace Sys2Proof.Machine

/-! Rows of the opcode table. -/

theorem selects_ldI : Selects 0xF000#16 0xA000#16 (fun op => .ldI (opNnn op)) :=
  selects_of_major fun op (hop : major op = 0xA) => by simp only [decodeWord, hop, fieldNnn_eq]

/-- A row of major 0xF, from the answer of `decodeMisc` on the low byte (30_encoding.md R99). -/
theorem selects_misc {pattern : Word} {f : Word → Instr} (hpattern : major pattern = 0xF)
    (h : ∀ op, (fieldNn op).toNat = (fieldNn pattern).toNat → decodeMisc op = .ok (f op)) : Selects 0xF0FF#16 pattern f :=
  selects_of_major_fieldNn fun op hop hnn => by
    rw [hpattern] at hop
    simp only [decodeWord, hop, h op hnn]

theorem selects_addI : Selects 0xF0FF#16 0xF01E#16 (fun op => .addI (opX op)) :=
  selects_misc rfl fun op (hnn : (fieldNn op).toNat = 0x1E) => by simp only [decodeMisc, hnn, fieldX_eq]

theorem selects_ldF : Selects 0xF0FF#16 0xF029#16 (fun op => .ldF (opX op)) :=
  selects_misc rfl fun op (hnn : (fieldNn op).toNat = 0x29) => by simp only [decodeMisc, hnn, fieldX_eq]

theorem selects_stRegs : Selects 0xF0FF#16 0xF055#16 (fun op => .stRegs (opX op)) :=
  selects_misc rfl fun op (hnn : (fieldNn op).toNat = 0x55) => by simp only [decodeMisc, hnn, fieldX_eq]

theorem selects_ldRegs : Selects 0xF0FF#16 0xF065#16 (fun op => .ldRegs (opX op)) :=
  selects_misc rfl fun op (hnn : (fieldNn op).toNat = 0x65) => by simp only [decodeMisc, hnn, fieldX_eq]

/-! One write of I. -/

/-- The end of an instruction that writes I changes no other piece. -/
theorem unchanged_setI_advance (s : State) (w : Word) : Unchanged (· = .index) s (s.setI w).advance := by
  intro p hp
  cases p
  case index => exact absurd rfl hp
  all_goals rfl

/-- A value below 4096 passes the mask of I unchanged. -/
theorem masked_of_lt {w : Word} (h : w.toNat < 4096) : (w &&& 0x0FFF#16).toNat = w.toNat := by
  rw [masked_toNat, Nat.mod_eq_of_lt h]

/-- Settles O43: a 12-bit address passes the mask of I unchanged. -/
theorem loadIndexWritesItsAddress : Obligations.LoadIndexWritesItsAddress := by
  refine ⟨selects_ldI, fun nnn s => ⟨_, exec_ldI nnn s, ?_, State.advance_pc_toNat _, unchanged_setI_advance s _⟩⟩
  have hlt : (addrOperand nnn).toNat < 4096 := by rw [addrOperand_toNat]; exact nnn.isLt
  rw [State.advance_i, State.setI_i, masked_of_lt hlt, addrOperand_toNat]

/-- Settles O44: both are one masked write of I; the font's addresses are below the mask. -/
theorem addIndexAndFontAddressWriteIndexMasked : Obligations.AddIndexAndFontAddressWriteIndexMasked := by
  refine ⟨selects_addI, selects_ldF,
    fun x s => ⟨_, exec_addI x s, ?_, State.advance_pc_toNat _, unchanged_setI_advance s _⟩,
    fun x s => ⟨_, exec_ldF x s, ?_, State.advance_pc_toNat _, unchanged_setI_advance s _⟩⟩
  · rw [State.advance_i, State.setI_i, masked_toNat, BitVec.toNat_add, BitVec.toNat_setWidth_of_le (by decide)]
    omega
  · have hdigit := (s.lowNibble x).isLt
    have haddr : (BitVec.ofNat 16 (Config.fontBase + 5 * (s.lowNibble x).val)).toNat = 0x050 + 5 * (s.lowNibble x).val := by
      rw [BitVec.toNat_ofNat, Config.fontBase]; omega
    rw [State.advance_i, State.setI_i, masked_of_lt (by omega), haddr]
    rfl

/-! The block transfers. -/

/-- What a block transfer does to I changes nothing else (42_index_memory.md R175). -/
theorem unchanged_afterBlock_advance (s : State) (x : Reg) : Unchanged (· = .index) s (s.afterBlock x).advance := by
  unfold State.afterBlock
  cases s.profile with
  | original => exact unchanged_setI_advance s _
  | modern => exact unchanged_setPc _ s _

/-- Two updates one after the other change at most what each of them writes. -/
theorem Unchanged.trans {w w' written : Part → Prop} {s t u : State} (hst : Unchanged w s t) (htu : Unchanged w' t u)
    (hw : ∀ p, w p → written p) (hw' : ∀ p, w' p → written p) : Unchanged written s u :=
  fun p hp => Part.same_trans (hst p fun h => hp (hw p h)) (htu p fun h => hp (hw' p h))

theorem unchanged_storeBytes (s : State) (base : Nat) (bs : List Byte) :
    Unchanged (fun p => ∃ k < bs.length, p = .byte (cellOf (base + k))) s (s.storeBytes base bs) :=
  (unchanged_storeBytes_advance s base bs).trans (unchanged_setPc _ _ (s.storeBytes base bs).pc) (fun _ h => h) (fun _ h => h)

/-- Settles O46: the store of the registers' list, then the profile's move of I. -/
theorem blockStoreWritesTheRegisters : Obligations.BlockStoreWritesTheRegisters := by
  refine ⟨selects_stRegs, fun x s => ⟨_, exec_stRegs x s, fun k hk => ?_, fun hp => ?_, fun hp => ?_, ?_, ?_⟩⟩
  · have hlt : k.val < x.val + 1 := Nat.lt_succ_iff.mpr hk
    have hlen := State.regBlock_length s x
    rw [State.advance_mem, State.afterBlock_mem, State.storeBytes_mem, memRead_memWriteBytes _ _ _ _ (by omega) (by omega),
      State.regBlock_getElem s x k.val hlt]
  · refine State.afterBlock_i_original ?_ x
    exact hp
  · exact State.afterBlock_i_modern (by simp [hp]) x
  · rw [State.advance_pc_toNat, State.afterBlock_pc, State.storeBytes_pc]
  · refine (unchanged_storeBytes s _ (s.regBlock x)).trans (unchanged_afterBlock_advance _ x) ?_ fun _ => Or.inl
    rintro _ ⟨k, hk, rfl⟩
    rw [State.regBlock_length] at hk
    exact Or.inr ⟨⟨k, by omega⟩, Nat.lt_succ_iff.mp hk, rfl⟩

/-- Replacing the register file changes only registers that read differently. -/
theorem unchanged_v {written : Part → Prop} (s : State) (v : Vector Byte 16)
    (hv : ∀ r : Reg, ¬ written (.reg r) → v[r.val] = s.reg r) : Unchanged written s { s with v := v } := by
  intro p hp
  cases p
  case reg r => exact hv r hp
  all_goals rfl

/-- Settles O47: the registers up to x from memory, then the profile's move of I. -/
theorem blockLoadReadsTheRegisters : Obligations.BlockLoadReadsTheRegisters := by
  refine ⟨selects_ldRegs, fun x s => ⟨_, exec_ldRegs x s, fun k hk => ?_, fun hp => ?_, fun hp => ?_, ?_, ?_⟩⟩
  · rw [exec_ldRegs_reg (exec_ldRegs x s), if_pos hk]
  · refine State.afterBlock_i_original ?_ x
    exact hp
  · exact State.afterBlock_i_modern (by simp [hp]) x
  · rw [State.advance_pc_toNat, State.afterBlock_pc]
  · have hregs := unchanged_v (written := (·.isRegUpTo x)) s _ fun r hr => (loadBlock_getElem s x r).trans (if_neg hr)
    exact hregs.trans (unchanged_afterBlock_advance _ x) (fun _ => Or.inr) fun _ => Or.inl

end Sys2Proof.Machine

/-! PROOFS. Display: DRW inverts what its sprite covers and reports a lit pixel under it, and drawing twice undoes it (43_display.md R192 to
R195). -/
namespace Sys2Proof.Machine

theorem selects_drw : Selects 0xF000#16 0xD000#16 (fun op => .drw (opX op) (opY op) (opN op)) :=
  selects_of_major fun op (hop : major op = 0xD) => by simp only [decodeWord, hop, fieldX_eq, fieldY_eq, fieldN_eq]

section
variable {x y : Reg} {n : Fin 16} {s t : State}

/-- DRW pixel by pixel. -/
theorem drw_pixel_covered (h : exec (.drw x y n) s = .next t) {row : Fin 32} {col : Fin 64} (hc : spriteCovers s x y n row col) :
    t.fb.pixel row col = !s.fb.pixel row col := by
  cases h
  have hmem := (s.mem_drawPlaces x y n (row, col)).mpr hc
  exact (compose_pixel s.fb _ (s.drawPlaces_nodup x y n) (row, col)).trans (by simp [hmem])

theorem drw_pixel_other (h : exec (.drw x y n) s = .next t) {row : Fin 32} {col : Fin 64} (hc : ¬ spriteCovers s x y n row col) :
    t.fb.pixel row col = s.fb.pixel row col := by
  cases h
  have hmem := (s.mem_drawPlaces x y n (row, col)).not.mpr hc
  exact (compose_pixel s.fb _ (s.drawPlaces_nodup x y n) (row, col)).trans (by simp [hmem])

/-- VF after DRW is the detector's answer, as a flag. -/
theorem drw_flag (h : exec (.drw x y n) s = .next t) :
    t.reg Reg.flag = flagByte (decide (∃ p ∈ s.drawPlaces x y n, s.fb.pixel p.1 p.2 = true)) := by
  cases h
  rw [← compose_hit s.fb _ (s.drawPlaces_nodup x y n)]
  exact State.reg_setReg_self _ _ _

theorem drw_flag_hit (h : exec (.drw x y n) s = .next t) {row : Fin 32} {col : Fin 64} (hc : spriteCovers s x y n row col)
    (hlit : s.fb.pixel row col = true) : t.reg Reg.flag = 1#8 := by
  rw [drw_flag h, decide_eq_true ⟨(row, col), (s.mem_drawPlaces x y n _).mpr hc, hlit⟩]
  rfl

theorem drw_flag_miss (h : exec (.drw x y n) s = .next t)
    (hunlit : ∀ row col, spriteCovers s x y n row col → s.fb.pixel row col = false) : t.reg Reg.flag = 0#8 := by
  rw [drw_flag h, decide_eq_false]
  · rfl
  · rintro ⟨p, hp, hlit⟩
    rw [hunlit p.1 p.2 ((s.mem_drawPlaces x y n p).mp hp)] at hlit
    cases hlit

theorem drw_frame (h : exec (.drw x y n) s = .next t) : Unchanged (fun p => p = .reg Reg.flag ∨ p.isPixel) s t := by
  cases h
  intro p hp
  cases p
  case reg r =>
    have hne : r ≠ Reg.flag := fun heq => hp (Or.inl (by rw [heq]))
    exact (State.reg_setFlag _ r _).trans (if_neg hne)
  case pixel => exact absurd (Or.inr trivial) hp
  all_goals rfl

end

/-- Settles O49: the compositor inverts each covered place once, and the detector looks at the covered places before. -/
theorem drawXorsTheSpriteAndReportsCollision : Obligations.DrawXorsTheSpriteAndReportsCollision := by
  refine ⟨selects_drw, fun x y n s => ?_⟩
  have h := exec_drw x y n s
  refine ⟨_, h, fun _ _ => drw_pixel_covered h, fun _ _ => drw_pixel_other h, ?_, drw_flag_miss h, State.advance_pc_toNat _,
    drw_frame h⟩
  rintro ⟨row, col, hc, hlit⟩
  exact drw_flag_hit h hc hlit

/-- The sprite covers the same pixels when the position registers, I and memory read the same. -/
theorem spriteCovers_congr {s t : State} {x y : Reg} (hx : t.reg x = s.reg x) (hy : t.reg y = s.reg y) (hi : t.i = s.i)
    (hmem : t.mem = s.mem) (n : Fin 16) (row : Fin 32) (col : Fin 64) :
    spriteCovers t x y n row col ↔ spriteCovers s x y n row col := by
  simp only [spriteCovers, hx, hy, hi, hmem]

/-- The first draw leaves the position registers when neither is VF, or VF is as it was (43_display.md R195). -/
theorem drw_keeps_positions {x y : Reg} {n : Fin 16} {s t : State} (h : exec (.drw x y n) s = .next t)
    (hpos : (x ≠ Reg.flag ∧ y ≠ Reg.flag) ∨ t.reg Reg.flag = s.reg Reg.flag) : t.reg x = s.reg x ∧ t.reg y = s.reg y := by
  have hother (r : Reg) (hr : r ≠ Reg.flag) : t.reg r = s.reg r := drw_frame h (.reg r) (by simp [hr, Part.isPixel])
  rcases hpos with ⟨hx, hy⟩ | hflag
  · exact ⟨hother x hx, hother y hy⟩
  · have hall (r : Reg) : t.reg r = s.reg r := by
      by_cases hr : r = Reg.flag
      · rw [hr, hflag]
      · exact hother r hr
    exact ⟨hall x, hall y⟩

/-- The second sprite covers the same pixels, so each is inverted twice or never, and the second draw meets the first one's result. -/
theorem drw_twice {x y : Reg} {n : Fin 16} {s t u : State} (hst : exec (.drw x y n) s = .next t)
    (htu : exec (.drw x y n) t = .next u) (hpos : (x ≠ Reg.flag ∧ y ≠ Reg.flag) ∨ t.reg Reg.flag = s.reg Reg.flag) :
    (∀ row col, u.fb.pixel row col = s.fb.pixel row col) ∧
    ((∃ row col, spriteCovers s x y n row col ∧ s.fb.pixel row col = false) → u.reg Reg.flag = 1#8) ∧
    ((∀ row col, spriteCovers s x y n row col → s.fb.pixel row col = true) → u.reg Reg.flag = 0#8) := by
  have hframe := exec_frame hst
  obtain ⟨hx, hy⟩ := drw_keeps_positions hst hpos
  have hcovers := spriteCovers_congr hx hy (hframe.index rfl) (hframe.memory rfl) n
  refine ⟨fun row col => ?_, ?_, fun hall => ?_⟩
  · by_cases hc : spriteCovers s x y n row col
    · rw [drw_pixel_covered htu ((hcovers row col).mpr hc), drw_pixel_covered hst hc, Bool.not_not]
    · rw [drw_pixel_other htu ((hcovers row col).not.mpr hc), drw_pixel_other hst hc]
  · rintro ⟨row, col, hc, hunlit⟩
    refine drw_flag_hit htu ((hcovers row col).mpr hc) ?_
    rw [drw_pixel_covered hst hc, hunlit, Bool.not_false]
  · refine drw_flag_miss htu fun row col hc => ?_
    have hc := (hcovers row col).mp hc
    rw [drw_pixel_covered hst hc, hall row col hc, Bool.not_true]

/-- Settles O50: both draws complete, and `drw_twice`. -/
theorem drawingTwiceRestoresTheDisplay : Obligations.DrawingTwiceRestoresTheDisplay :=
  fun x y n s => ⟨_, _, exec_drw x y n s, exec_drw x y n _, drw_twice (exec_drw x y n s) (exec_drw x y n _)⟩

end Sys2Proof.Machine

/-! PROOFS. Keypad and timers: the key skips, the entry of the key wait, the waiting step and the timer moves (44_keypad_timers.md R201 to
R208). -/
namespace Sys2Proof.Machine

/-! Rows of the opcode table. -/

/-- A row of major 0xE, from the answer of `decodeKeypad` on the low byte (30_encoding.md R98). -/
theorem selects_keypad {pattern : Word} {f : Word → Instr} (hpattern : major pattern = 0xE)
    (h : ∀ op, (fieldNn op).toNat = (fieldNn pattern).toNat → decodeKeypad op = .ok (f op)) : Selects 0xF0FF#16 pattern f :=
  selects_of_major_fieldNn fun op hop hnn => by
    rw [hpattern] at hop
    simp only [decodeWord, hop, h op hnn]

theorem selects_skp : Selects 0xF0FF#16 0xE09E#16 (fun op => .skp (opX op)) :=
  selects_keypad rfl fun op (hnn : (fieldNn op).toNat = 0x9E) => by simp only [decodeKeypad, hnn, fieldX_eq]

theorem selects_sknp : Selects 0xF0FF#16 0xE0A1#16 (fun op => .sknp (opX op)) :=
  selects_keypad rfl fun op (hnn : (fieldNn op).toNat = 0xA1) => by simp only [decodeKeypad, hnn, fieldX_eq]

theorem selects_ldVxDt : Selects 0xF0FF#16 0xF007#16 (fun op => .ldVxDt (opX op)) :=
  selects_misc rfl fun op (hnn : (fieldNn op).toNat = 0x07) => by simp only [decodeMisc, hnn, fieldX_eq]

theorem selects_ldVxK : Selects 0xF0FF#16 0xF00A#16 (fun op => .ldVxK (opX op)) :=
  selects_misc rfl fun op (hnn : (fieldNn op).toNat = 0x0A) => by simp only [decodeMisc, hnn, fieldX_eq]

theorem selects_ldDtVx : Selects 0xF0FF#16 0xF015#16 (fun op => .ldDtVx (opX op)) :=
  selects_misc rfl fun op (hnn : (fieldNn op).toNat = 0x15) => by simp only [decodeMisc, hnn, fieldX_eq]

theorem selects_ldStVx : Selects 0xF0FF#16 0xF018#16 (fun op => .ldStVx (opX op)) :=
  selects_misc rfl fun op (hnn : (fieldNn op).toNat = 0x18) => by simp only [decodeMisc, hnn, fieldX_eq]

/-! The key skips. -/

theorem keyDown_lowNibble {s : State} {x : Reg} {k : Key} (hk : k.val = (s.reg x).toNat % 16) :
    s.keyDown (s.lowNibble x) = s.key[k.val] := by
  obtain rfl : k = s.lowNibble x := Fin.ext hk
  rfl

/-- Settles O51: both are `skipIf`, on the level of the key and on its negation. -/
theorem keySkipsTestTheNamedKey : Obligations.KeySkipsTestTheNamedKey := by
  refine ⟨selects_skp, selects_sknp, fun x k s hk => ⟨_, exec_skp x s, ?_, unchanged_skipIf _ s _⟩,
    fun x k s hk => ⟨_, exec_sknp x s, ?_, unchanged_skipIf _ s _⟩⟩
  · rw [State.skipIf_pc_toNat, keyDown_lowNibble hk]
  · rw [State.skipIf_pc_toNat, keyDown_lowNibble hk]
    cases s.key[k.val] <;> rfl

/-! The key wait. -/

theorem awaiting_of_wait {s : State} {x : Reg} (h : s.wait = .awaitingKey x) : awaiting s = true :=
  (awaiting_eq_true_iff s).mpr ⟨x, h⟩

/-- Taking the snapshot changes no other piece. -/
theorem unchanged_snapshot (s : State) : Unchanged (·.isKeyPrev) s s.snapshot := by
  intro p hp
  cases p
  case keyPrev => exact absurd trivial hp
  all_goals rfl

/-- Settles O52: WAIT is set and the snapshot taken; pc and V[x] are not written. -/
theorem keyWaitEntersTheSubState : Obligations.KeyWaitEntersTheSubState := by
  refine ⟨selects_ldVxK, fun x s => ⟨_, exec_ldVxK x s, rfl, rfl, fun _ => rfl, rfl, fun p hp => ?_⟩⟩
  cases p
  case wait => exact absurd (Or.inl rfl) hp
  case keyPrev => exact absurd (Or.inr trivial) hp
  all_goals rfl

theorem rising_eq_false_iff (s : State) (k : Key) :
    s.rising k = false ↔ (s.key[k.val] = true → s.keyPrev[k.val] = true) := by
  unfold State.rising
  cases s.key[k.val] <;> cases s.keyPrev[k.val] <;> simp

/-- The converse of `State.firstRising_eq_some`: the detector finds the lowest rising key (44_keypad_timers.md R205). -/
theorem firstRising_of_lowest {s : State} {k : Key} (hk : s.rising k = true) (hlow : ∀ j < k, s.rising j = false) :
    s.firstRising = some k := by
  cases hf : s.firstRising with
  | none =>
    rw [State.firstRising_eq_none.mp hf k] at hk
    cases hk
  | some j =>
    obtain ⟨hj, hjlow⟩ := State.firstRising_eq_some hf
    rcases lt_trichotomy j k with hlt | rfl | hgt
    · rw [hlow j hlt] at hj; cases hj
    · rfl
    · rw [hjlow k hgt] at hk; cases hk

/-- The end of the wait writes V[x], WAIT and the snapshot, and moves pc; nothing else. -/
theorem unchanged_wait_end (s : State) (x : Reg) (b : Byte) : Unchanged (fun p => p = .wait ∨ p = .reg x ∨ p.isKeyPrev) s
    ({ s.snapshot.setReg x b with wait := .running } : State).advance := by
  intro p hp
  cases p
  case wait => exact absurd (Or.inl rfl) hp
  case keyPrev => exact absurd (Or.inr (Or.inr trivial)) hp
  case reg r =>
    have hne : r ≠ x := fun heq => hp (Or.inr (Or.inl (by rw [heq])))
    exact (State.reg_setReg s x r b).trans (if_neg hne)
  all_goals rfl

/-- Settles O53: by what the edge detector finds. -/
theorem waitingStepTakesTheLowestRisingKey : Obligations.WaitingStepTakesTheLowestRisingKey := by
  refine ⟨fun x s hw hnone => ?_, fun x s k hw hdown hup hlow => ?_⟩
  · have hf : s.firstRising = none := State.firstRising_eq_none.mpr fun k => (rising_eq_false_iff s k).mpr (hnone k)
    have hstep : step s = .next s.snapshot := by rw [step_of_awaiting hw, waitingStep_none hf]
    exact ⟨_, hstep, fun _ => rfl, rfl, awaiting_of_wait hw, unchanged_snapshot s⟩
  · have hrise : s.rising k = true := by simp only [State.rising, hdown, hup, Bool.not_false, Bool.and_self]
    have hf : s.firstRising = some k := firstRising_of_lowest hrise fun j hj => (rising_eq_false_iff s j).mpr (hlow j hj)
    refine ⟨_, (step_of_awaiting hw).trans (congrArg _ (waitingStep_some hf)), ?_, fun _ => rfl, rfl, rfl, State.advance_pc_toNat _,
      unchanged_wait_end s x _⟩
    have hreg := congrArg BitVec.toNat (State.reg_setReg_self s.snapshot x (BitVec.ofNat 8 k.val))
    exact hreg.trans (Nat.mod_eq_of_lt (by omega))

/-! SET_KEY. -/

/-- Settles O57: one element of KEY is replaced. -/
theorem setKeyWritesOneKey : Obligations.SetKeyWritesOneKey := by
  intro k b s
  have hkey (j : Key) : (setKey k b s).key[j.val] = if j = k then b else s.key[j.val] := by
    refine (Vector.getElem_set k.isLt j.isLt).trans ?_
    simp only [Fin.val_inj, eq_comm (a := k)]
  refine ⟨rfl, hkey, rfl, fun p hp => ?_⟩
  cases p
  case key j =>
    have hne : j ≠ k := fun heq => hp (by rw [heq])
    exact (hkey j).trans (if_neg hne)
  all_goals rfl

/-! The timer moves. -/

theorem unchanged_setDt_advance (s : State) (b : Byte) : Unchanged (· = .delay) s (s.setDt b).advance := by
  intro p hp
  cases p
  case delay => exact absurd rfl hp
  all_goals rfl

theorem unchanged_setSt_advance (s : State) (b : Byte) : Unchanged (· = .sound) s (s.setSt b).advance := by
  intro p hp
  cases p
  case sound => exact absurd rfl hp
  all_goals rfl

/-- Settles O54: one write of V[x], or of DT, and the move of pc. -/
theorem delayTimerMoves : Obligations.DelayTimerMoves :=
  ⟨selects_ldVxDt, selects_ldDtVx,
    fun x s => ⟨_, exec_ldVxDt x s, State.reg_setReg_self s x _, State.advance_pc_toNat _, unchanged_setReg_advance s x _⟩,
    fun x s => ⟨_, exec_ldDtVx x s, rfl, State.advance_pc_toNat _, unchanged_setDt_advance s _⟩⟩

theorem exec_call_setSt (nnn : Addr) (s : State) (b : Byte) :
    exec (.call nnn) (s.setSt b) = onNext (·.setSt b) (exec (.call nnn) s) := by
  rcases Nat.lt_or_ge s.sp.val 16 with hfree | hfull
  · rw [exec_call_push nnn s hfree, exec_call_push nnn (s.setSt b) hfree]; rfl
  · have hfull : s.sp.val = 16 := by omega
    rw [exec_call_full nnn s hfull, exec_call_full nnn (s.setSt b) hfull]; rfl

theorem exec_ret_setSt (s : State) (b : Byte) : exec .ret (s.setSt b) = onNext (·.setSt b) (exec .ret s) := by
  rcases Nat.eq_zero_or_pos s.sp.val with hempty | hlive
  · rw [exec_ret_empty s hempty, exec_ret_empty (s.setSt b) hempty]; rfl
  · rw [exec_ret_pop s hlive, exec_ret_pop (s.setSt b) hlive]; rfl

theorem afterBlock_setSt (s : State) (x : Reg) (b : Byte) : (s.setSt b).afterBlock x = (s.afterBlock x).setSt b := by
  unfold State.afterBlock
  rw [State.setSt_profile]
  cases s.profile <;> rfl

/-- Only LD ST writes the sound timer and none reads it; of the others CALL and RET branch on `sp`, the block transfers on the
profile. -/
theorem exec_setSt {i : Instr} (hi : ∀ x, i ≠ .ldStVx x) (s : State) (b : Byte) :
    exec i (s.setSt b) = onNext (·.setSt b) (exec i s) := by
  cases i
  case ldStVx x => exact absurd rfl (hi x)
  case call nnn => exact exec_call_setSt nnn s b
  case ret => exact exec_ret_setSt s b
  case stRegs x =>
    exact congrArg (fun t => Host.Outcome.next (State.advance t))
      (afterBlock_setSt (s.storeBytes s.i.toNat (s.regBlock x)) x b)
  case ldRegs x =>
    exact congrArg (fun t => Host.Outcome.next (State.advance t))
      (afterBlock_setSt { s with v := loadRegs s.v 0 (memReadBytes s.mem s.i.toNat (x.val + 1)) } x b)
  all_goals rfl

/-- Settles O55: one write of ST, which SOUND reads, and no other `exec` depends on the field. -/
theorem soundTimerMoveAndNoReaderOfIt : Obligations.SoundTimerMoveAndNoReaderOfIt :=
  ⟨selects_ldStVx,
    fun x s => ⟨_, exec_ldStVx x s, rfl, sound_eq_true_iff _, State.advance_pc_toNat _, unchanged_setSt_advance s _⟩,
    fun _ s b hi => exec_setSt hi s b, fun _ _ _ => rfl⟩

end Sys2Proof.Machine
